-- ==== Sys2Proof/Word.lean ====
section
/-! DEFINITION. The two widths of data the block moves. Bytes are the unit of IN, OUT and the wire format
(20_memory.md R41, R48); registers are 32 bits wide (00_scope.md R6, `REG_W`). -/

namespace Sys2Proof

/-- A byte of IN, of OUT or of a PacketStream: a value in 0..255 (00_scope.md R8). -/
abbrev Byte := BitVec 8

/-- A register's value, and the address and data of a host access (00_scope.md R6: `REG_W` = 32). -/
abbrev Word := BitVec 32

end Sys2Proof
end

