-- ==== Sys2Proof/Config.lean ====
section
/-! DEFINITION. The parameters of 00_scope.md R6. The fixed ones have the value the rule gives. The OPEN ones are
constants without a body, so that no proof can use a value of theirs; `Params` carries those a step reads, as the
argument R6 has the model take. The free values of draw() (R10) are here too. -/

namespace Sys2Proof

/-- `RUN_CAP`: the longest run the engine emits (00_scope.md R6, R7). -/
def Config.runCap : Nat := 127

/-- `LIT_CAP`: the longest literal span (00_scope.md R6, R7). -/
def Config.litCap : Nat := 128

/-- `MIN_RUN`: the shortest run the engine emits (00_scope.md R6, R7). `runStart` tests two adjacent bytes for it. -/
def Config.minRun : Nat := 2

/-- `FMT_RUN_MAX`: the longest run the format can express (00_scope.md R6). -/
def Config.fmtRunMax : Nat := 128

/-- The OPEN parameters of one engine that its steps read (00_scope.md R6): `INIT_IN` for the addresses 0..IN_SIZE-1 and
`INIT_OUT` for the addresses 0..OUT_SIZE-1, each as the list of its bytes. The sizes are the lists' lengths. -/
structure Params where
  initIn  : List Byte
  initOut : List Byte
deriving DecidableEq, Repr

/-- `IN_SIZE`: the depth of the input buffer in bytes (00_scope.md R6). -/
def Params.inSize (p : Params) : Nat := p.initIn.length

/-- `OUT_SIZE`: the depth of the output buffer in bytes (00_scope.md R6). -/
def Params.outSize (p : Params) : Nat := p.initOut.length

/-- The constraints of 00_scope.md R6: 1 <= IN_SIZE <= 2^32 - 1 and 2 <= OUT_SIZE <= 2^32 - 1. -/
abbrev Params.Legal (p : Params) : Prop :=
  (1 ≤ p.inSize ∧ p.inSize ≤ 4294967295) ∧ (2 ≤ p.outSize ∧ p.outSize ≤ 4294967295)

/-- OPEN: `IN_SIZE` of this platform, less one (00_scope.md R6, 92_eei_decisions.md D5). -/
opaque Config.inSizeLessOne : Fin 4294967295

/-- OPEN: `OUT_SIZE` of this platform, less two (00_scope.md R6, 92_eei_decisions.md D5). -/
opaque Config.outSizeLessTwo : Fin 4294967294

/-- OPEN: `INIT_IN`, the power-on contents of IN (00_scope.md R6, 70_reset_and_hazards.md R158). -/
opaque Config.initIn : Nat → Byte

/-- OPEN: `INIT_OUT`, the power-on contents of OUT (00_scope.md R6, 70_reset_and_hazards.md R158). -/
opaque Config.initOut : Nat → Byte

/-- OPEN: `NUM_ENGINES`, less one (00_scope.md R6, 60_exceptions.md R152). -/
opaque Config.numEnginesLessOne : Nat

/-- `IN_SIZE` of this platform: 1 <= IN_SIZE <= 2^32 - 1 (00_scope.md R6). -/
def Config.inSize : Nat := Config.inSizeLessOne.val + 1

/-- `OUT_SIZE` of this platform: 2 <= OUT_SIZE <= 2^32 - 1 (00_scope.md R6). -/
def Config.outSize : Nat := Config.outSizeLessTwo.val + 2

/-- `NUM_ENGINES` >= 1 (00_scope.md R6). -/
def Config.numEngines : Nat := Config.numEnginesLessOne + 1

/-- This platform's engine parameters: the sizes and the power-on contents, all OPEN (00_scope.md R6). -/
def Config.params : Params where
  initIn  := (List.range Config.inSize).map Config.initIn
  initOut := (List.range Config.outSize).map Config.initOut

/-- OPEN: where the platform places the register window; no rule of the block reads it (20_memory.md R53). -/
opaque Config.regBase : Nat

/-- OPEN: where the platform places IN; no rule of the block reads it (20_memory.md R53). -/
opaque Config.inBase : Nat

/-- OPEN: where the platform places OUT; no rule of the block reads it (20_memory.md R53). -/
opaque Config.outBase : Nat

/-- OPEN: `REG_BUS_ORDER`, the byte of a register word each bus lane carries; no rule of the block reads it
(20_memory.md R46). -/
opaque Config.regBusOrder : Nat → Nat

/-- draw() (00_scope.md R10): the n-th unconstrained byte the model hands out. Every value must be admitted
(42_host_commands.md R134, 70_reset_and_hazards.md R156), so it has no body. -/
opaque Config.freeByte : Nat → Byte

end Sys2Proof
end

