-- ==== Sys2Proof/Syntax.lean ====
section
/-! DEFINITION. The block's operations: the three wire-format classes, the thirteen host operations and the four engine
steps (00_scope.md R2, opcode_table.json), with the register names and the host access they are made of. -/

namespace Sys2Proof

/-- The three address spaces (20_memory.md R41). -/
inductive Space where
  | reg
  | inBuf
  | outBuf
deriving DecidableEq, Repr

/-- The direction of a host access (30_encoding.md R80). -/
inductive Dir where
  | read
  | write
deriving DecidableEq, Repr

/-- A host access as 30_encoding.md R80 encodes it: space, offset or address, width in bits, direction, data.
A read's data is not looked at. -/
structure HostAccess where
  space : Space
  addr  : Word
  width : Nat
  dir   : Dir
  data  : Word
deriving DecidableEq, Repr

/-- The words of the register window that HOST_RD_REG returns (42_host_commands.md R128). -/
inductive DataReg where
  | inLen
  | outCap
  | inPos
  | outLen
deriving DecidableEq, Repr

/-- The read-only registers HOST_WR_RO writes to (42_host_commands.md R129). -/
inductive RoReg where
  | status
  | inPos
  | outLen
deriving DecidableEq, Repr

/-- The reserved offsets 0x18 and 0x1C (10_state.md R33). -/
inductive RsvdReg where
  | at18
  | at1C
deriving DecidableEq, Repr

/-- HOST_RSVD is a read or a write of a reserved offset (42_host_commands.md R130). -/
inductive RsvdAccess where
  | read
  | write (v : Word)
deriving DecidableEq, Repr

/-- Why a host access is none of the block's host operations (20_memory.md R47(c)). -/
inductive AccessReject where
  /-- a register access of another width than 32 bits -/
  | regWidth
  /-- a register access at an offset that is no multiple of 4 -/
  | regMisaligned
  /-- a register access at an offset of 0x20 or more -/
  | regOffset
  /-- a buffer access of another width than 8 bits -/
  | bufferWidth
deriving DecidableEq, Repr

/-- The two errors of RefDecode (30_encoding.md R77). -/
inductive RefError where
  | truncatedLiteral
  | truncatedRun
deriving DecidableEq, Repr

/-- One constructor for each row of opcode_table.json, in the table's order. -/
inductive Instr where
  /-- LIT (30_encoding.md R65): the payload bytes, 1..128 of them. -/
  | lit (payload : List Byte)
  /-- RSVD (30_encoding.md R67). -/
  | rsvd
  /-- RUN (30_encoding.md R66): the count, 2..128, and the repeated byte. -/
  | run (count : Nat) (b : Byte)
  /-- HOST_START (42_host_commands.md R122): `upper` is bits 31:1 of the written value, which are ignored; bit 0 is 1. -/
  | hostStart (upper : BitVec 31)
  /-- HOST_WR_CTRL0 (42_host_commands.md R124): `upper` is bits 31:1 of the written value; bit 0 is 0. -/
  | hostWrCtrl0 (upper : BitVec 31)
  /-- HOST_RD_CTRL (42_host_commands.md R124). -/
  | hostRdCtrl
  /-- HOST_RD_STATUS (42_host_commands.md R125). -/
  | hostRdStatus
  /-- HOST_WR_IN_LEN (42_host_commands.md R126). -/
  | hostWrInLen (v : Word)
  /-- HOST_WR_OUT_CAP (42_host_commands.md R127). -/
  | hostWrOutCap (v : Word)
  /-- HOST_RD_REG (42_host_commands.md R128). -/
  | hostRdReg (r : DataReg)
  /-- HOST_WR_RO (42_host_commands.md R129). -/
  | hostWrRo (r : RoReg) (v : Word)
  /-- HOST_RSVD (42_host_commands.md R130). -/
  | hostRsvd (r : RsvdReg) (acc : RsvdAccess)
  /-- HOST_WR_IN (42_host_commands.md R131). -/
  | hostWrIn (a : Word) (v : Byte)
  /-- HOST_RD_IN (42_host_commands.md R132). -/
  | hostRdIn (a : Word)
  /-- HOST_WR_OUT (42_host_commands.md R133). -/
  | hostWrOut (a : Word) (v : Byte)
  /-- HOST_RD_OUT (42_host_commands.md R134). -/
  | hostRdOut (a : Word)
  /-- FINISH (41_control_byte_writer.md R106). -/
  | finish
  /-- EMIT_RUN(L) (41_control_byte_writer.md R107). -/
  | emitRun (len : Nat)
  /-- EMIT_LIT(L) (41_control_byte_writer.md R108). -/
  | emitLit (len : Nat)
  /-- EXHAUST (41_control_byte_writer.md R109). -/
  | exhaust
deriving DecidableEq, Repr

end Sys2Proof
end

