-- ==== Sys2Proof/Machine/State.lean ====
section
/-! DEFINITION. The architectural state of one engine (10_state.md R20), the parameters it is an instance of, and the
model's own fields: the turns to come, what the host last read, the count of free values, and the variables of RefDecode.
With them the ways a step can stop. -/

namespace Sys2Proof.Machine

/-- STATE (10_state.md R27). -/
inductive Phase where
  | idle
  | busy
  | done
  | error
deriving DecidableEq, Repr

/-- ERR (10_state.md R28). -/
inductive ErrCode where
  | none
  | outputBufferExhausted
  | configInvalid
deriving DecidableEq, Repr

/-- One turn of a run (20_memory.md R57): a host access, an engine step, a step of the reference reader of RefDecode, or
a reset event (70_reset_and_hazards.md R156). -/
inductive Turn where
  | host (a : HostAccess)
  | engine
  | reference
  | resetLine
deriving DecidableEq, Repr

/-- What a host read returned: a register's word or a buffer's byte (42_host_commands.md R124 to R134). -/
inductive HostRead where
  | nothing
  | word (w : Word)
  | byte (b : Byte)
deriving DecidableEq, Repr

/-- The state of one engine. The first eight fields are the tuple of 10_state.md R20. -/
structure State where
  /-- STATE (R27) -/
  phase     : Phase
  /-- ERR (R28) -/
  err       : ErrCode
  /-- IN_LEN, the source's N (R24, R29) -/
  inLen     : Word
  /-- OUT_CAP, the source's CAP (R24, R30) -/
  outCap    : Word
  /-- IN_POS, the position i (R24, R31) -/
  inPos     : Word
  /-- OUT_LEN, the length o (R24, R32) -/
  outLen    : Word
  /-- IN (R34), the bytes that differ from the power-on contents -/
  inBuf     : List Host.Cell
  /-- OUT (R35), the bytes that differ from the power-on contents -/
  outBuf    : List Host.Cell
  /-- the OPEN parameters this engine is an instance of (00_scope.md R6); no step writes them (log 4) -/
  params    : Params
  /-- the turns to come, the next one first (20_memory.md R57; log 1) -/
  turns     : List Turn
  /-- what the host's last read returned (log 6) -/
  hostRead  : HostRead
  /-- how many free values draw() has handed out (00_scope.md R10; log 7) -/
  draws     : Nat
  /-- RefDecode's stream from position j on (30_encoding.md R75; log 8) -/
  refStream : List Byte
  /-- RefDecode's out (30_encoding.md R75; log 8) -/
  refOut    : List Byte
  /-- the error RefDecode returned, if it did (30_encoding.md R77; log 8) -/
  refError  : Option RefError
deriving DecidableEq, Repr

/-- Why the machine stops with a fault. Both stand for an engine step that would touch a byte that does not exist; no state
that a run reaches raises one (10_state.md R38). -/
inductive Fault where
  /-- Raised by an engine step of a BUSY engine whose IN_POS is above IN_LEN or whose IN_LEN is above IN_SIZE: PARTITION
  is not defined there (40_partitioner.md R92) and IN has no such bytes. Safe: the model stops. -/
  | partitionOutsideInput
  /-- Raised by EMIT_RUN and EMIT_LIT when the segment would reach past OUT_SIZE, which takes an OUT_CAP above OUT_SIZE in
  a BUSY engine. Safe: the model stops. -/
  | emitOutsideOutput
deriving DecidableEq, Repr

/-- Why the model gives no meaning. -/
inductive Refusal where
  /-- Raised by exec for an instruction that has no meaning yet. Safe. -/
  | notModelled (mnemonic : String)
  /-- Raised by a host's turn whose access is none of the host operations (20_memory.md R47(c)). Safe: the spec refuses it. -/
  | accessRefused (r : AccessReject)
  /-- Raised by HOST_WR_IN, HOST_RD_IN, HOST_WR_OUT and HOST_RD_OUT at an address at or beyond the buffer's size
  (42_host_commands.md R135). Safe: the spec refuses it. -/
  | bufferAddressBeyondSize
  /-- Raised by an engine step's meaning while STATE is not BUSY: no engine step is enabled
  (41_control_byte_writer.md R105). Safe; no turn calls a meaning then. -/
  | engineNotEnabled
  /-- Raised by an engine step's meaning when the dispatch of 41_control_byte_writer.md R105 selects another step. Safe; no
  turn calls a meaning then. -/
  | engineStepNotSelected
deriving DecidableEq, Repr

/-- The engine at power-on (10_state.md R39, 70_reset_and_hazards.md R156, R158): every register at its reset value, IN and
OUT at their power-on contents, nothing to come. -/
def State.reset : State where
  phase     := .idle
  err       := .none
  inLen     := 0#32
  outCap    := 0#32
  inPos     := 0#32
  outLen    := 0#32
  inBuf     := []
  outBuf    := []
  params    := Config.params
  turns     := []
  hostRead  := .nothing
  draws     := 0
  refStream := []
  refOut    := []
  refError  := none

end Sys2Proof.Machine
end

