-- ==== Sys2Proof/Machine/Ops.lean ====
section
/-! DEFINITION. The operations the instructions are made of: reading and writing a sparse memory in its one canonical form,
the accesses to IN and OUT (20_memory.md), draw(), entering and leaving ERROR, and returning a value to the host. -/

namespace Sys2Proof.Machine

/-! ### Memory

A memory lists the bytes that differ from its power-on contents `d`, at rising addresses. -/

/-- What an unlisted address reads as: its power-on byte (20_memory.md R55). Addresses that do not exist have none. -/
def powerOn (init : List Byte) (a : Nat) : Byte := init.getD a 0#8

/-- MemRead(_, a, 1) (00_scope.md R10). -/
def Memory.read (d : Nat → Byte) : List Host.Cell → Nat → Byte
  | [], a => d a
  | c :: m, a => if c.1 = a then c.2 else Memory.read d m a

/-- The memory without an entry for address `a`. -/
def Memory.erase (m : List Host.Cell) (a : Nat) : List Host.Cell := m.filter fun c => decide (c.1 ≠ a)

/-- The memory with the entry `(a, v)`, in its place by address. -/
def Memory.insert : List Host.Cell → Nat → Byte → List Host.Cell
  | [], a, v => [(a, v)]
  | c :: m, a, v =>
    if a < c.1 then (a, v) :: c :: m
    else if c.1 = a then (a, v) :: m
    else c :: Memory.insert m a v

/-- MemWrite(_, a, 1, v) (00_scope.md R10): writing what an unlisted address reads as removes the entry. -/
def Memory.write (d : Nat → Byte) (m : List Host.Cell) (a : Nat) (v : Byte) : List Host.Cell :=
  if v = d a then Memory.erase m a else Memory.insert m a v

/-- Bytes stored at `a` and the addresses after it, in address order (20_memory.md R45). -/
def Memory.writeList (d : Nat → Byte) (m : List Host.Cell) (a : Nat) : List Byte → List Host.Cell
  | [] => m
  | v :: vs => Memory.writeList d (Memory.write d m a v) (a + 1) vs

/-- The canonical form of a memory of `size` bytes: addresses strictly rising and below `size`, and no entry equal to what
an unlisted address reads as. -/
def Memory.wf (d : Nat → Byte) (size : Nat) : List Host.Cell → Bool
  | [] => true
  | c :: m =>
    decide (c.1 < size) && decide (c.2 ≠ d c.1) && m.all (fun e => decide (c.1 < e.1)) && Memory.wf d size m

/-! ### IN and OUT -/

/-- IN[a] (10_state.md R34). -/
def readIn (s : State) (a : Nat) : Byte := Memory.read (powerOn s.params.initIn) s.inBuf a

/-- OUT[a] (10_state.md R35). -/
def readOut (s : State) (a : Nat) : Byte := Memory.read (powerOn s.params.initOut) s.outBuf a

/-- MemWrite(IN, a, 1, v). -/
def writeIn (s : State) (a : Nat) (v : Byte) : State :=
  { s with inBuf := Memory.write (powerOn s.params.initIn) s.inBuf a v }

/-- MemWrite(OUT, a, 1, v). -/
def writeOut (s : State) (a : Nat) (v : Byte) : State :=
  { s with outBuf := Memory.write (powerOn s.params.initOut) s.outBuf a v }

/-- MemWrite(OUT, a + k, 1, bytes[k]) for each k in turn. -/
def writeOutBytes (s : State) (a : Nat) (bytes : List Byte) : State :=
  { s with outBuf := Memory.writeList (powerOn s.params.initOut) s.outBuf a bytes }

/-- IN[a .. a+n) (00_scope.md R9). -/
def inSlice (s : State) (a n : Nat) : List Byte := (List.range n).map fun k => readIn s (a + k)

/-- OUT[a .. a+n) (00_scope.md R9). -/
def outSlice (s : State) (a n : Nat) : List Byte := (List.range n).map fun k => readOut s (a + k)

/-! ### draw() -/

/-- The next `n` values of draw() (00_scope.md R10). -/
def drawn (s : State) (n : Nat) : List Byte := (List.range n).map fun k => Config.freeByte (s.draws + k)

/-- The state after `n` values of draw(). -/
def countDraws (s : State) (n : Nat) : State := { s with draws := s.draws + n }

/-! ### Errors and jobs -/

/-- Error entry (60_exceptions.md R145): STATE = ERROR and the code in ERR, and no more. It saves no position and goes to
no handler. -/
def enterError (s : State) (e : ErrCode) : State := { s with phase := .error, err := e }

/-- IN_POS and OUT_LEN set to 0, as every START that is not ignored does (42_host_commands.md R122). -/
def clearProgress (s : State) : State := { s with inPos := 0#32, outLen := 0#32 }

/-- A job begins (42_host_commands.md R122). It is also the way out of ERROR (60_exceptions.md R146). -/
def beginJob (s : State) : State := { clearProgress s with phase := .busy, err := .none }

/-! ### The host's side -/

/-- A host read returns a register's word. -/
def returnWord (s : State) (w : Word) : State := { s with hostRead := .word w }

/-- A host read returns a buffer's byte. -/
def returnByte (s : State) (b : Byte) : State := { s with hostRead := .byte b }

/-- The state a host write that is dropped while BUSY leaves, or the state the write makes
(42_host_commands.md R126, R127, R131, R133). -/
def unlessBusy (s t : State) : State := if s.phase = .busy then s else t

/-- The reset values of every register (10_state.md R39). -/
def resetRegisters (s : State) : State :=
  { s with phase := .idle, err := .none, inLen := 0#32, outCap := 0#32, inPos := 0#32, outLen := 0#32 }

/-- How many bytes of OUT a reset leaves at any value: OUT[OUT_LEN..OUT_CAP) of a BUSY job, none otherwise
(70_reset_and_hazards.md R156). OUT has no byte at or beyond OUT_SIZE. -/
def cutOffCount (s : State) : Nat :=
  if s.phase = .busy then min s.outCap.toNat s.params.outSize - s.outLen.toNat else 0

/-- The reset event (70_reset_and_hazards.md R156): the registers at their reset values, IN unchanged, OUT unchanged but for
the bytes a cut-off job had not committed, which become draw(). -/
def resetEvent (s : State) : State :=
  resetRegisters (countDraws (writeOutBytes s s.outLen.toNat (drawn s (cutOffCount s))) (cutOffCount s))

end Sys2Proof.Machine
end

