-- ==== Sys2Proof/WellFormed.lean ====
section
/-! DEFINITION. The bounds the spec puts on an instruction's operands that its type does not. -/

namespace Sys2Proof

/-- LIT carries 1..128 bytes and RUN counts 2..128 (30_encoding.md R68, R69); EMIT_RUN covers 2..127 and EMIT_LIT
1..128 bytes (41_control_byte_writer.md R107, R108). Every other operand may take every value of its type. -/
def WellFormed : Instr → Bool
  | .lit payload    => decide (1 ≤ payload.length ∧ payload.length ≤ 128)
  | .rsvd           => true
  | .run count _    => decide (2 ≤ count ∧ count ≤ Config.fmtRunMax)
  | .hostStart _    => true
  | .hostWrCtrl0 _  => true
  | .hostRdCtrl     => true
  | .hostRdStatus   => true
  | .hostWrInLen _  => true
  | .hostWrOutCap _ => true
  | .hostRdReg _    => true
  | .hostWrRo _ _   => true
  | .hostRsvd _ _   => true
  | .hostWrIn _ _   => true
  | .hostRdIn _     => true
  | .hostWrOut _ _  => true
  | .hostRdOut _    => true
  | .finish         => true
  | .emitRun len    => decide (Config.minRun ≤ len ∧ len ≤ Config.runCap)
  | .emitLit len    => decide (1 ≤ len ∧ len ≤ Config.litCap)
  | .exhaust        => true

/-- The engine steps, which have no encoding (opcode_table.json; the dispatch of 41_control_byte_writer.md R105 selects
them). -/
def isEngineStep : Instr → Bool
  | .lit _          => false
  | .rsvd           => false
  | .run _ _        => false
  | .hostStart _    => false
  | .hostWrCtrl0 _  => false
  | .hostRdCtrl     => false
  | .hostRdStatus   => false
  | .hostWrInLen _  => false
  | .hostWrOutCap _ => false
  | .hostRdReg _    => false
  | .hostWrRo _ _   => false
  | .hostRsvd _ _   => false
  | .hostWrIn _ _   => false
  | .hostRdIn _     => false
  | .hostWrOut _ _  => false
  | .hostRdOut _    => false
  | .finish         => true
  | .emitRun _      => true
  | .emitLit _      => true
  | .exhaust        => true

/-- The host operations (42_host_commands.md R121): neither a wire-format segment nor an engine step. -/
def isHostOp : Instr → Bool
  | .lit _          => false
  | .rsvd           => false
  | .run _ _        => false
  | .hostStart _    => true
  | .hostWrCtrl0 _  => true
  | .hostRdCtrl     => true
  | .hostRdStatus   => true
  | .hostWrInLen _  => true
  | .hostWrOutCap _ => true
  | .hostRdReg _    => true
  | .hostWrRo _ _   => true
  | .hostRsvd _ _   => true
  | .hostWrIn _ _   => true
  | .hostRdIn _     => true
  | .hostWrOut _ _  => true
  | .hostRdOut _    => true
  | .finish         => false
  | .emitRun _      => false
  | .emitLit _      => false
  | .exhaust        => false

end Sys2Proof
end

