-- ==== Sys2Proof/Decode.lean ====
section
/-! DEFINITION. Reading operations from their encodings, and writing them: segments of a PacketStream (30_encoding.md
section 1) and host accesses (R80). Engine steps have no encoding; the dispatch of 41_control_byte_writer.md R105 is in
Machine/Engine.lean. -/

namespace Sys2Proof

/-- `u8(v)` = v mod 256 (00_scope.md R8). -/
def u8 (v : Nat) : Byte := BitVec.ofNat 8 v

/-- 30_encoding.md R68: `L = zext_8(n[6:0]) + 1`. -/
def litLength (n : Byte) : Nat := (n.extractLsb' 0 7).toNat + 1

/-- 30_encoding.md R69: `C = 257 - zext_8(n)`. -/
def runCount (n : Byte) : Nat := 257 - n.toNat

/-- 30_encoding.md R73: the LIT control byte of a span of `len` bytes. -/
def litControl (len : Nat) : Byte := u8 (len - 1)

/-- 30_encoding.md R72: the RUN control byte of a run of `len` bytes, computed wide and then narrowed. -/
def runControl (len : Nat) : Byte := u8 (257 - len)

/-- 30_encoding.md R70: a segment's length from its control byte alone. -/
def segLen (n : Byte) : Nat :=
  if n.toNat ≤ 0x7F then n.toNat + 2 else if n = 0x80#8 then 1 else 2

/-- Why an encoding is none of the block's. -/
inductive Reject where
  /-- no byte is left in the stream -/
  | emptyStream
  /-- the stream ends inside a segment (30_encoding.md R77) -/
  | truncated (e : RefError)
  /-- bytes follow a segment that was to be read alone -/
  | bytesLeftOver
  /-- a host access that R80 does not list -/
  | access (r : AccessReject)
deriving DecidableEq, Repr

/-- One segment from the front of a PacketStream, and the rest of the stream (30_encoding.md R63 to R70, R77). -/
def decodeSegment : List Byte → Except Reject (Instr × List Byte)
  | [] => .error .emptyStream
  | n :: rest =>
    if n.getLsbD 7 = false then
      if rest.length < litLength n then .error (.truncated .truncatedLiteral)
      else .ok (.lit (rest.take (litLength n)), rest.drop (litLength n))
    else if n = 0x80#8 then .ok (.rsvd, rest)
    else
      match rest with
      | [] => .error (.truncated .truncatedRun)
      | b :: rest' => .ok (.run (runCount n) b, rest')

/-- The eight words of the register window (10_state.md R23). -/
inductive RegName where
  | ctrl
  | status
  | inLen
  | outCap
  | inPos
  | outLen
  | rsvd18
  | rsvd1C
deriving DecidableEq, Repr

/-- 10_state.md R23: the register at a word index (offset / 4) of the window. -/
def regAt : Nat → Option RegName
  | 0 => some .ctrl
  | 1 => some .status
  | 2 => some .inLen
  | 3 => some .outCap
  | 4 => some .inPos
  | 5 => some .outLen
  | 6 => some .rsvd18
  | 7 => some .rsvd1C
  | _ => none

/-- The host operation a 32-bit read of a register is (42_host_commands.md R124, R125, R128, R130). -/
def decodeRegRead : RegName → Instr
  | .ctrl   => .hostRdCtrl
  | .status => .hostRdStatus
  | .inLen  => .hostRdReg .inLen
  | .outCap => .hostRdReg .outCap
  | .inPos  => .hostRdReg .inPos
  | .outLen => .hostRdReg .outLen
  | .rsvd18 => .hostRsvd .at18 .read
  | .rsvd1C => .hostRsvd .at1C .read

/-- The host operation a 32-bit write of `v` to a register is (42_host_commands.md R122, R124, R126, R127, R129,
R130). For CTRL, bit 0 of the value selects (30_encoding.md R80). -/
def decodeRegWrite (v : Word) : RegName → Instr
  | .ctrl   => if v.getLsbD 0 then .hostStart (v.extractLsb' 1 31) else .hostWrCtrl0 (v.extractLsb' 1 31)
  | .status => .hostWrRo .status v
  | .inLen  => .hostWrInLen v
  | .outCap => .hostWrOutCap v
  | .inPos  => .hostWrRo .inPos v
  | .outLen => .hostWrRo .outLen v
  | .rsvd18 => .hostRsvd .at18 (.write v)
  | .rsvd1C => .hostRsvd .at1C (.write v)

/-- The host operation an access is (30_encoding.md R80), or why it is none (20_memory.md R47). A byte access takes bits
7:0 of the data. Whether a buffer address exists is for the operation itself (42_host_commands.md R135). -/
def decodeAccess (a : HostAccess) : Except AccessReject Instr :=
  match a.space with
  | .reg =>
    if a.width ≠ 32 then .error .regWidth
    else if a.addr.toNat % 4 ≠ 0 then .error .regMisaligned
    else
      match regAt (a.addr.toNat / 4), a.dir with
      | none,   _      => .error .regOffset
      | some r, .read  => .ok (decodeRegRead r)
      | some r, .write => .ok (decodeRegWrite a.data r)
  | .inBuf =>
    if a.width ≠ 8 then .error .bufferWidth
    else
      match a.dir with
      | .read  => .ok (.hostRdIn a.addr)
      | .write => .ok (.hostWrIn a.addr (a.data.setWidth 8))
  | .outBuf =>
    if a.width ≠ 8 then .error .bufferWidth
    else
      match a.dir with
      | .read  => .ok (.hostRdOut a.addr)
      | .write => .ok (.hostWrOut a.addr (a.data.setWidth 8))

/-- An operation's encoding: the bytes of one segment, or a host access. -/
inductive Encoded where
  | segment (bytes : List Byte)
  | access (a : HostAccess)
deriving DecidableEq, Repr

/-- The operation an encoding is. A segment's bytes are read whole. -/
def decode : Encoded → Except Reject Instr
  | .segment bytes =>
    match decodeSegment bytes with
    | .ok (i, [])     => .ok i
    | .ok (_, _ :: _) => .error .bytesLeftOver
    | .error r        => .error r
  | .access a =>
    match decodeAccess a with
    | .ok i    => .ok i
    | .error r => .error (.access r)

/-- A 32-bit read of the register window. -/
def readReg (offset : Nat) : Encoded := .access ⟨.reg, BitVec.ofNat 32 offset, 32, .read, 0#32⟩

/-- A 32-bit write of the register window. -/
def writeReg (offset : Nat) (v : Word) : Encoded := .access ⟨.reg, BitVec.ofNat 32 offset, 32, .write, v⟩

/-- The offset of a register HOST_RD_REG reads (10_state.md R23). -/
def dataRegOffset : DataReg → Nat
  | .inLen  => 0x08
  | .outCap => 0x0C
  | .inPos  => 0x10
  | .outLen => 0x14

/-- The offset of a register HOST_WR_RO writes to (10_state.md R23). -/
def roRegOffset : RoReg → Nat
  | .status => 0x04
  | .inPos  => 0x10
  | .outLen => 0x14

/-- The reserved offsets (10_state.md R33). -/
def rsvdRegOffset : RsvdReg → Nat
  | .at18 => 0x18
  | .at1C => 0x1C

/-- The encoding of an operation (30_encoding.md R79, R80); none for an engine step. -/
def encode : Instr → Option Encoded
  | .lit payload          => some (.segment (litControl payload.length :: payload))
  | .rsvd                 => some (.segment [0x80#8])
  | .run count b          => some (.segment [runControl count, b])
  | .hostStart upper      => some (writeReg 0x00 (upper ++ 1#1))
  | .hostWrCtrl0 upper    => some (writeReg 0x00 (upper ++ 0#1))
  | .hostRdCtrl           => some (readReg 0x00)
  | .hostRdStatus         => some (readReg 0x04)
  | .hostWrInLen v        => some (writeReg 0x08 v)
  | .hostWrOutCap v       => some (writeReg 0x0C v)
  | .hostRdReg r          => some (readReg (dataRegOffset r))
  | .hostWrRo r v         => some (writeReg (roRegOffset r) v)
  | .hostRsvd r .read     => some (readReg (rsvdRegOffset r))
  | .hostRsvd r (.write v) => some (writeReg (rsvdRegOffset r) v)
  | .hostWrIn a v         => some (.access ⟨.inBuf, a, 8, .write, v.setWidth 32⟩)
  | .hostRdIn a           => some (.access ⟨.inBuf, a, 8, .read, 0#32⟩)
  | .hostWrOut a v        => some (.access ⟨.outBuf, a, 8, .write, v.setWidth 32⟩)
  | .hostRdOut a          => some (.access ⟨.outBuf, a, 8, .read, 0#32⟩)
  | .finish               => none
  | .emitRun _            => none
  | .emitLit _            => none
  | .exhaust              => none

/-- Bits `lo` and up of `w`, `len` of them, as a number. -/
def bitField (w lo len : Nat) : Nat := w / 2 ^ lo % 2 ^ len

/-- The space a two-bit code names in the model's own packing of a host access. -/
def spaceOfCode : Nat → Option Space
  | 0 => some .reg
  | 1 => some .inBuf
  | 2 => some .outBuf
  | _ => none

/-- The model's own packing of a host access into one number, since 30_encoding.md R80 names its parts and gives no bits:
bits 31:0 offset or address, 63:32 data, 65:64 space, 66 direction (1 = write), 79:72 width in bits.
DESIGN CHOICE (log 9). -/
def accessOfBits (w : Nat) : Option HostAccess :=
  match spaceOfCode (bitField w 64 2) with
  | none => none
  | some sp =>
    some ⟨sp, BitVec.ofNat 32 w, bitField w 72 8, if bitField w 66 1 = 1 then .write else .read,
      BitVec.ofNat 32 (bitField w 32 32)⟩

/-- The bytes of the segment whose control byte is the low byte of `w`: the first `k` bytes of `w`, zeros above them, as
many as the control byte calls for (30_encoding.md R70). -/
def segmentOfBits (k w : Nat) : List Byte :=
  (List.range (segLen (u8 w))).map fun j => if j < k then u8 (w / 256 ^ j) else 0#8

/-- Whether a table word of `nbits` bits is a segment's: only the wire-format rows of opcode_table.json give whole 8-bit
words, and those rows cover every value (30_encoding.md R64). A wider word is a packed host access. DESIGN CHOICE
(log 9). -/
def isSegmentWord (nbits : Nat) : Bool := decide (nbits ≤ 8)

/-- The instruction the decoder reads from a table word of `nbits` bits whose value is `w`. -/
def decodeTableWord (nbits w : Nat) : Option Instr :=
  if isSegmentWord nbits then
    match decodeSegment (segmentOfBits 1 (w % 2 ^ nbits)) with
    | .ok (i, _) => some i
    | .error _   => none
  else
    match accessOfBits (w % 2 ^ nbits) with
    | none   => none
    | some a =>
      match decodeAccess a with
      | .ok i    => some i
      | .error _ => none

end Sys2Proof
end

