-- ==== Sys2Proof/Machine/Partition.lean ====
section
/-! DEFINITION. The greedy partitioner and the functional encoder (40_partitioner.md), over the bytes `x` of an input of
length `n`. -/

namespace Sys2Proof.Machine

/-- The two kinds of segment the partitioner chooses between (40_partitioner.md R92). -/
inductive SegKind where
  | run
  | lit
deriving DecidableEq, Repr

/-- A segment of a partition: kind, first input index, input bytes covered (40_partitioner.md R93). -/
structure Segment where
  kind  : SegKind
  start : Nat
  len   : Nat
deriving DecidableEq, Repr

/-- RUN_START(j) (40_partitioner.md R89). `x (j + 1)` counts only where j + 1 < n. -/
def runStart (x : Nat → Byte) (n j : Nat) : Bool := decide (j + 1 < n ∧ x j = x (j + 1))

/-- The loop of RUN_LENGTH (40_partitioner.md R90) from length `l` on. The fuel bounds the turns of the loop. -/
def runLengthLoop (x : Nat → Byte) (n i : Nat) : Nat → Nat → Nat
  | 0, l => l
  | fuel + 1, l =>
    if i + l < n ∧ l < Config.runCap ∧ x (i + l) = x i then runLengthLoop x n i fuel (l + 1) else l

/-- RUN_LENGTH(i) (40_partitioner.md R90). -/
def runLength (x : Nat → Byte) (n i : Nat) : Nat := runLengthLoop x n i Config.runCap 1

/-- The loop of LIT_LENGTH (40_partitioner.md R91) from length `l` on. -/
def litLengthLoop (x : Nat → Byte) (n i : Nat) : Nat → Nat → Nat
  | 0, l => l
  | fuel + 1, l =>
    if i + l < n ∧ l < Config.litCap ∧ runStart x n (i + l) = false then litLengthLoop x n i fuel (l + 1) else l

/-- LIT_LENGTH(i) (40_partitioner.md R91). -/
def spanLength (x : Nat → Byte) (n i : Nat) : Nat := litLengthLoop x n i Config.litCap 1

/-- PARTITION(i) (40_partitioner.md R92), as the segment that starts at i. -/
def partitionAt (x : Nat → Byte) (n i : Nat) : Segment :=
  if runStart x n i then ⟨.run, i, runLength x n i⟩ else ⟨.lit, i, spanLength x n i⟩

/-- The loop of Partition(x) (40_partitioner.md R93) from position `i` on. -/
def partitionFrom (x : Nat → Byte) (n : Nat) : Nat → Nat → List Segment
  | 0, _ => []
  | fuel + 1, i =>
    if i < n then partitionAt x n i :: partitionFrom x n fuel (i + (partitionAt x n i).len) else []

/-- Partition(x) (40_partitioner.md R93). Every segment covers at least one byte, so `n` turns are enough (R97). -/
def partition (x : Nat → Byte) (n : Nat) : List Segment := partitionFrom x n n 0

/-- The length in OUT of a segment that covers `len` input bytes (41_control_byte_writer.md R105). -/
def outLength (k : SegKind) (len : Nat) : Nat :=
  match k with
  | .run => 2
  | .lit => len + 1

/-- The bytes of a RUN segment of `len` copies of `b` (40_partitioner.md R94). -/
def runBytes (len : Nat) (b : Byte) : List Byte := [runControl len, b]

/-- The bytes of a LIT segment of the span `bytes` (40_partitioner.md R94). -/
def litBytes (bytes : List Byte) : List Byte := litControl bytes.length :: bytes

/-- Seg(k, i, L) (40_partitioner.md R94). -/
def segmentBytes (x : Nat → Byte) (g : Segment) : List Byte :=
  match g.kind with
  | .run => runBytes g.len (x g.start)
  | .lit => litBytes ((List.range g.len).map fun k => x (g.start + k))

/-- The bytes of the segments from position `i` on. -/
def encodeFrom (x : Nat → Byte) (n i : Nat) : List Byte := (partitionFrom x n (n - i) i).flatMap (segmentBytes x)

/-- Encode(x) (40_partitioner.md R94) of the input x[0..n). -/
def encodeInput (x : Nat → Byte) (n : Nat) : List Byte := (partition x n).flatMap (segmentBytes x)

/-- The input x[0..n) as a list. -/
def inputBytes (x : Nat → Byte) (n : Nat) : List Byte := (List.range n).map x

end Sys2Proof.Machine
end

