-- ==== Sys2Proof/Machine/Engine.lean ====
section
/-! DEFINITION. The engine's dispatch and its four steps (41_control_byte_writer.md). -/

namespace Sys2Proof.Machine

/-- PARTITION(i) of the running job: i = IN_POS, N = IN_LEN, over IN (40_partitioner.md R92). -/
def jobSegment (s : State) : Segment := partitionAt (readIn s) s.inLen.toNat s.inPos.toNat

/-- Whether PARTITION(i) is defined and reads only bytes that exist: i < N (40_partitioner.md R92) and N <= IN_SIZE. -/
def partitionDefined (s : State) : Bool :=
  decide (s.inPos.toNat < s.inLen.toNat ∧ s.inLen.toNat ≤ s.params.inSize)

/-- Whether the segment PARTITION(i) gives does not fit: o + S > CAP, without wrap (41_control_byte_writer.md R105). -/
def segmentTooLong (s : State) : Bool :=
  decide (s.outCap.toNat < s.outLen.toNat + outLength (jobSegment s).kind (jobSegment s).len)

/-- The emit step for a segment. -/
def emitStep (g : Segment) : Instr :=
  match g.kind with
  | .run => .emitRun g.len
  | .lit => .emitLit g.len

/-- The dispatch of 41_control_byte_writer.md R105 for a BUSY engine: the one step it takes, or none where PARTITION is
not defined. -/
def engineChoice (s : State) : Option Instr :=
  if s.inPos = s.inLen then some .finish
  else if partitionDefined s then
    if segmentTooLong s then some .exhaust else some (emitStep (jobSegment s))
  else none

/-- The outcome `o` of engine step `i` where the dispatch selects it; a step that is not enabled or not selected has no
meaning (41_control_byte_writer.md R105). -/
def whenSelected (i : Instr) (s : State) (o : Host.Outcome State Fault Refusal) : Host.Outcome State Fault Refusal :=
  if s.phase ≠ .busy then .refused .engineNotEnabled
  else
    match engineChoice s with
    | none   => .fault .partitionOutsideInput
    | some j => if j = i then o else .refused .engineStepNotSelected

/-- The commit rule (41_control_byte_writer.md R110): the segment's bytes go to OUT from o on, OUT_LEN rises by their
number and IN_POS by the input bytes covered. -/
def commitSegment (s : State) (len : Nat) (bytes : List Byte) : Host.Outcome State Fault Refusal :=
  if s.outLen.toNat + bytes.length ≤ s.params.outSize then
    .next { writeOutBytes s s.outLen.toNat bytes with
      outLen := BitVec.ofNat 32 (s.outLen.toNat + bytes.length)
      inPos  := BitVec.ofNat 32 (s.inPos.toNat + len) }
  else .fault .emitOutsideOutput

/-- FINISH (41_control_byte_writer.md R106): STATE becomes DONE. -/
def execFinish (s : State) : Host.Outcome State Fault Refusal :=
  whenSelected .finish s (.next { s with phase := .done })

/-- EMIT_RUN(L) (41_control_byte_writer.md R107). -/
def execEmitRun (len : Nat) (s : State) : Host.Outcome State Fault Refusal :=
  whenSelected (.emitRun len) s (commitSegment s len (runBytes len (readIn s s.inPos.toNat)))

/-- EMIT_LIT(L) (41_control_byte_writer.md R108). -/
def execEmitLit (len : Nat) (s : State) : Host.Outcome State Fault Refusal :=
  whenSelected (.emitLit len) s (commitSegment s len (litBytes (inSlice s s.inPos.toNat len)))

/-- EXHAUST (41_control_byte_writer.md R109): the error report of 60_exceptions.md R140; nothing is written. -/
def execExhaust (s : State) : Host.Outcome State Fault Refusal :=
  whenSelected .exhaust s (.next (enterError s .outputBufferExhausted))

end Sys2Proof.Machine
end

