-- ==== Sys2Proof/Machine/Operands.lean ====
section
/-! DEFINITION. The operand forms: the registers HOST_RD_REG reads, and the bounds of a buffer address. -/

namespace Sys2Proof.Machine

/-- The register an operand of HOST_RD_REG names, whole (42_host_commands.md R128). -/
def readDataReg (s : State) : DataReg → Word
  | .inLen  => s.inLen
  | .outCap => s.outCap
  | .inPos  => s.inPos
  | .outLen => s.outLen

/-- An access to IN at `a`: next state `t`, or refused where IN has no such byte (42_host_commands.md R135). -/
def atInAddress (s : State) (a : Word) (t : State) : Host.Outcome State Fault Refusal :=
  if a.toNat < s.params.inSize then .next t else .refused .bufferAddressBeyondSize

/-- An access to OUT at `a`: next state `t`, or refused where OUT has no such byte (42_host_commands.md R135). -/
def atOutAddress (s : State) (a : Word) (t : State) : Host.Outcome State Fault Refusal :=
  if a.toNat < s.params.outSize then .next t else .refused .bufferAddressBeyondSize

end Sys2Proof.Machine
end

