-- ==== Sys2Proof/Machine/HostBuffers.lean ====
section
/-! DEFINITION. The host operations on IN and OUT (42_host_commands.md section 3). -/

namespace Sys2Proof.Machine

/-- HOST_WR_IN (42_host_commands.md R131): dropped while BUSY. -/
def execHostWrIn (a : Word) (v : Byte) (s : State) : Host.Outcome State Fault Refusal :=
  atInAddress s a (unlessBusy s (writeIn s a.toNat v))

/-- HOST_RD_IN (42_host_commands.md R132): in any state. -/
def execHostRdIn (a : Word) (s : State) : Host.Outcome State Fault Refusal :=
  atInAddress s a (returnByte s (readIn s a.toNat))

/-- HOST_WR_OUT (42_host_commands.md R133): dropped while BUSY. -/
def execHostWrOut (a : Word) (v : Byte) (s : State) : Host.Outcome State Fault Refusal :=
  atOutAddress s a (unlessBusy s (writeOut s a.toNat v))

/-- HOST_RD_OUT (42_host_commands.md R134): draw() while BUSY, else the byte. -/
def execHostRdOut (a : Word) (s : State) : Host.Outcome State Fault Refusal :=
  atOutAddress s a
    (if s.phase = .busy then returnByte (countDraws s 1) (Config.freeByte s.draws)
     else returnByte s (readOut s a.toNat))

end Sys2Proof.Machine
end

