-- ==== Sys2Proof/Machine/Flags.lean ====
section
/-! DEFINITION. The block's only flags are the STATUS fields STATE and ERR (10_state.md R36): their codes and the word a
read of STATUS returns. -/

namespace Sys2Proof.Machine

/-- The STATE code (10_state.md R27). -/
def stateCode : Phase → BitVec 2
  | .idle  => 0#2
  | .busy  => 1#2
  | .done  => 2#2
  | .error => 3#2

/-- The ERR code (10_state.md R28). -/
def errCode : ErrCode → BitVec 4
  | .none                  => 0#4
  | .outputBufferExhausted => 1#4
  | .configInvalid         => 2#4

/-- STATUS as a read returns it (10_state.md R26): `zext_32(ERR_code << 4 | STATE_code)`. -/
def statusWord (s : State) : Word :=
  (errCode s.err).setWidth 32 <<< 4 ||| (stateCode s.phase).setWidth 32

end Sys2Proof.Machine
end

