-- ==== Sys2Proof/Machine/HostRegs.lean ====
section
/-! DEFINITION. The host operations on the register window (42_host_commands.md sections 1 and 2). -/

namespace Sys2Proof.Machine

/-- IN_LEN and OUT_CAP fit the buffers (42_host_commands.md R123). -/
def lengthsFit (s : State) : Bool :=
  decide (s.inLen.toNat ≤ s.params.inSize ∧ s.outCap.toNat ≤ s.params.outSize)

/-- The state a START leaves (42_host_commands.md R122, R123; priority by 60_exceptions.md R143(a)). -/
def startJob (s : State) : State :=
  unlessBusy s (if lengthsFit s then beginJob s else clearProgress (enterError s .configInvalid))

/-- HOST_START (42_host_commands.md R122). Bits 31:1 of the value are ignored. -/
def execHostStart (_upper : BitVec 31) (s : State) : Host.Outcome State Fault Refusal := .next (startJob s)

/-- HOST_WR_CTRL0 (42_host_commands.md R124): no effect. -/
def execHostWrCtrl0 (_upper : BitVec 31) (s : State) : Host.Outcome State Fault Refusal := .next s

/-- HOST_RD_CTRL (42_host_commands.md R124): returns 0. -/
def execHostRdCtrl (s : State) : Host.Outcome State Fault Refusal := .next (returnWord s 0#32)

/-- HOST_RD_STATUS (42_host_commands.md R125). -/
def execHostRdStatus (s : State) : Host.Outcome State Fault Refusal := .next (returnWord s (statusWord s))

/-- HOST_WR_IN_LEN (42_host_commands.md R126). -/
def execHostWrInLen (v : Word) (s : State) : Host.Outcome State Fault Refusal :=
  .next (unlessBusy s { s with inLen := v })

/-- HOST_WR_OUT_CAP (42_host_commands.md R127). -/
def execHostWrOutCap (v : Word) (s : State) : Host.Outcome State Fault Refusal :=
  .next (unlessBusy s { s with outCap := v })

/-- HOST_RD_REG (42_host_commands.md R128). -/
def execHostRdReg (r : DataReg) (s : State) : Host.Outcome State Fault Refusal :=
  .next (returnWord s (readDataReg s r))

/-- HOST_WR_RO (42_host_commands.md R129): no effect, in any state. -/
def execHostWrRo (_r : RoReg) (_v : Word) (s : State) : Host.Outcome State Fault Refusal := .next s

/-- HOST_RSVD (42_host_commands.md R130): a read returns 0, a write has no effect. -/
def execHostRsvd (_r : RsvdReg) (acc : RsvdAccess) (s : State) : Host.Outcome State Fault Refusal :=
  match acc with
  | .read    => .next (returnWord s 0#32)
  | .write _ => .next s

end Sys2Proof.Machine
end

