-- ==== Sys2Proof/Machine/Wire.lean ====
section
/-! DEFINITION. The three wire-format classes. Their meaning is that of RefDecode (30_encoding.md R75), whose variables the
state holds beside the engine's: no hardware of this block (00_scope.md R4(a); log 8). -/

namespace Sys2Proof.Machine

/-- RefDecode's `out <- out ++ bytes` (30_encoding.md R75). -/
def refAppend (s : State) (bytes : List Byte) : State := { s with refOut := s.refOut ++ bytes }

/-- LIT: the payload is copied verbatim (30_encoding.md R64, R65, R75). -/
def execLit (payload : List Byte) (s : State) : Host.Outcome State Fault Refusal := .next (refAppend s payload)

/-- RSVD: zero output, zero payload (30_encoding.md R67, R76). -/
def execRsvd (s : State) : Host.Outcome State Fault Refusal := .next s

/-- RUN: the byte is repeated (30_encoding.md R64, R66, R75). -/
def execRun (count : Nat) (b : Byte) (s : State) : Host.Outcome State Fault Refusal :=
  .next (refAppend s (List.replicate count b))

/-- The loop of RefDecode (30_encoding.md R75) on the rest `s` of the stream, with `out` so far. Every turn takes at least
one byte, so the stream's length is fuel enough. -/
def refDecodeLoop : Nat → List Byte → List Byte → Except RefError (List Byte)
  | 0, _, out => .ok out
  | _ + 1, [], out => .ok out
  | fuel + 1, b :: s, out =>
    if b.toNat ≤ 0x7F then
      if s.length < b.toNat + 1 then .error .truncatedLiteral
      else refDecodeLoop fuel (s.drop (b.toNat + 1)) (out ++ s.take (b.toNat + 1))
    else if b = 0x80#8 then refDecodeLoop fuel s out
    else
      match s with
      | [] => .error .truncatedRun
      | v :: s' => refDecodeLoop fuel s' (out ++ List.replicate (257 - b.toNat) v)

/-- RefDecode(s) (30_encoding.md R75). -/
def refDecode (s : List Byte) : Except RefError (List Byte) := refDecodeLoop s.length s []

end Sys2Proof.Machine
end

