-- ==== Sys2Proof/Machine/Dispatch.lean ====
section
/-! DEFINITION. One arm per row of opcode_table.json. -/

namespace Sys2Proof.Machine

def exec (i : Instr) (s : State) : Host.Outcome State Fault Refusal :=
  match i with
  | .lit payload => Sys2Proof.Machine.execLit payload s
  | .rsvd => Sys2Proof.Machine.execRsvd s
  | .run count b => Sys2Proof.Machine.execRun count b s
  | .hostStart upper => Sys2Proof.Machine.execHostStart upper s
  | .hostWrCtrl0 upper => Sys2Proof.Machine.execHostWrCtrl0 upper s
  | .hostRdCtrl => Sys2Proof.Machine.execHostRdCtrl s
  | .hostRdStatus => Sys2Proof.Machine.execHostRdStatus s
  | .hostWrInLen v => Sys2Proof.Machine.execHostWrInLen v s
  | .hostWrOutCap v => Sys2Proof.Machine.execHostWrOutCap v s
  | .hostRdReg r => Sys2Proof.Machine.execHostRdReg r s
  | .hostWrRo r v => Sys2Proof.Machine.execHostWrRo r v s
  | .hostRsvd r acc => Sys2Proof.Machine.execHostRsvd r acc s
  | .hostWrIn a v => Sys2Proof.Machine.execHostWrIn a v s
  | .hostRdIn a => Sys2Proof.Machine.execHostRdIn a s
  | .hostWrOut a v => Sys2Proof.Machine.execHostWrOut a v s
  | .hostRdOut a => Sys2Proof.Machine.execHostRdOut a s
  | .finish => Sys2Proof.Machine.execFinish s
  | .emitRun len => Sys2Proof.Machine.execEmitRun len s
  | .emitLit len => Sys2Proof.Machine.execEmitLit len s
  | .exhaust => Sys2Proof.Machine.execExhaust s

end Sys2Proof.Machine
end

