-- ==== Sys2Proof/Machine/Turns.lean ====
section
/-! DEFINITION. What each kind of turn does: it reads its next instruction and runs it (20_memory.md R57). -/

namespace Sys2Proof.Machine

/-- A host's turn: the access decoded and run, or refused (30_encoding.md R80, 20_memory.md R47). -/
def hostTurn (a : HostAccess) (s : State) : Host.Outcome State Fault Refusal :=
  match decodeAccess a with
  | .ok i    => exec i s
  | .error r => .refused (.accessRefused r)

/-- The engine's turn: the step the dispatch selects, while BUSY; otherwise the engine is quiescent and the turn passes
(41_control_byte_writer.md R105; log 3). -/
def engineTurn (s : State) : Host.Outcome State Fault Refusal :=
  if s.phase = .busy then
    match engineChoice s with
    | some i => exec i s
    | none   => .fault .partitionOutsideInput
  else .next s

/-- The reference reader's turn: one turn of RefDecode's loop (30_encoding.md R75). At the end of the stream, and after an
error, RefDecode has returned and the turn passes. A truncated segment is recorded as RefDecode's result (R77; log 8). -/
def referenceTurn (s : State) : Host.Outcome State Fault Refusal :=
  if s.refError ≠ none then .next s
  else
    match decodeSegment s.refStream with
    | .ok (i, rest)           => exec i { s with refStream := rest }
    | .error (.truncated e)   => .next { s with refError := some e }
    | .error .emptyStream     => .next s
    | .error .bytesLeftOver   => .next s
    | .error (.access _)      => .next s

/-- One turn. -/
def takeTurn (t : Turn) (s : State) : Host.Outcome State Fault Refusal :=
  match t with
  | .host a    => hostTurn a s
  | .engine    => engineTurn s
  | .reference => referenceTurn s
  | .resetLine => .next (resetEvent s)

/-- The next turn of the run. When no turn is to come, a BUSY engine takes its step (70_reset_and_hazards.md R169: weak
fairness; log 2) and any other waits for the host (R159). -/
def nextTurn (s : State) : Host.Outcome State Fault Refusal :=
  match s.turns with
  | []      => engineTurn s
  | t :: ts => takeTurn t { s with turns := ts }

/-- The state with the segment of a table word placed where the reference reader reads next, and its turn first. -/
def placeSegment (s : State) (bytes : List Byte) : State :=
  { s with refStream := bytes ++ s.refStream, refError := none, turns := .reference :: s.turns }

/-- The state with a host's turn first. -/
def placeAccess (s : State) (a : HostAccess) : State := { s with turns := .host a :: s.turns }

/-- The state with the instruction of a table word placed where the machine reads its next one. A packed access whose space
code names no space places nothing. -/
def placeTableWord (s : State) (nbits w : Nat) : State :=
  if isSegmentWord nbits then placeSegment s (segmentOfBits 1 (w % 2 ^ nbits))
  else
    match accessOfBits (w % 2 ^ nbits) with
    | some a => placeAccess s a
    | none   => s

end Sys2Proof.Machine
end

