-- ==== Sys2Proof/Machine/Platform.lean ====
section
/-! DEFINITION. Several engines on one platform (60_exceptions.md R152): each its own State, none shared. -/

namespace Sys2Proof.Machine

/-- Every register at its reset value and nothing written yet: an engine at power-on, whatever its parameters are
(10_state.md R39, 70_reset_and_hazards.md R158). -/
def AtPowerOn (s : State) : Prop :=
  s.phase = .idle ∧ s.err = .none ∧ s.inLen = 0#32 ∧ s.outCap = 0#32 ∧ s.inPos = 0#32 ∧ s.outLen = 0#32 ∧
    s.inBuf = [] ∧ s.outBuf = [] ∧ s.params.Legal

/-- A platform at power-on: NUM_ENGINES engines, each with parameters of its own (00_scope.md R6). -/
def PlatformAtPowerOn (p : List State) : Prop := p.length = Config.numEngines ∧ ∀ s ∈ p, AtPowerOn s

/-- An action of engine `k` of the platform, or of its host: that engine's step, in its place (60_exceptions.md R152). A
platform without an engine `k` is left as it is. -/
def platformStep (p : List State) (k : Nat) : Host.Outcome (List State) Fault Refusal :=
  match p[k]? with
  | none => .next p
  | some s =>
    match step s with
    | .next t    => .next (p.set k t)
    | .fault r   => .fault r
    | .refused r => .refused r

end Sys2Proof.Machine
end

