-- ==== Sys2Proof/Safety.lean ====
section
/-! DEFINITION. What the statements say of a state and of a run: the engine's part of a state, the invariants of 10_state.md
R28 and R38, and runs of several steps. -/

namespace Sys2Proof.Machine

/-- The engine's part of two states is the same: the tuple of 10_state.md R20, and the parameters. -/
def SameEngine (s t : State) : Prop :=
  t.phase = s.phase ∧ t.err = s.err ∧ t.inLen = s.inLen ∧ t.outCap = s.outCap ∧ t.inPos = s.inPos ∧
    t.outLen = s.outLen ∧ t.inBuf = s.inBuf ∧ t.outBuf = s.outBuf ∧ t.params = s.params

/-- The model's own fields of two states are the same: the turns to come, the host's last read, the count of draws and
RefDecode's variables. -/
def SameModelFields (s t : State) : Prop :=
  t.turns = s.turns ∧ t.hostRead = s.hostRead ∧ t.draws = s.draws ∧ t.refStream = s.refStream ∧
    t.refOut = s.refOut ∧ t.refError = s.refError

/-- The parameters obey 00_scope.md R6, and IN and OUT are in their canonical form. -/
def MemoryOk (s : State) : Prop :=
  s.params.Legal ∧ Memory.wf (powerOn s.params.initIn) s.params.inSize s.inBuf = true ∧
    Memory.wf (powerOn s.params.initOut) s.params.outSize s.outBuf = true

/-- ERR is NONE exactly when STATE is not ERROR (10_state.md R28). -/
def ErrMatchesState (s : State) : Prop := s.err = .none ↔ s.phase ≠ .error

/-- 10_state.md R38 (a): IN_POS <= IN_LEN <= IN_SIZE. -/
def InputInBounds (s : State) : Prop :=
  s.inPos.toNat ≤ s.inLen.toNat ∧ s.inLen.toNat ≤ s.params.inSize

/-- 10_state.md R38 (b): OUT_LEN <= OUT_CAP <= OUT_SIZE. -/
def OutputInBounds (s : State) : Prop :=
  s.outLen.toNat ≤ s.outCap.toNat ∧ s.outCap.toNat ≤ s.params.outSize

/-- 10_state.md R38 (a) and (b). -/
def JobInBounds (s : State) : Prop := InputInBounds s ∧ OutputInBounds s

/-- What holds of the progress registers in every state: within the buffers; 0 in IDLE and after CONFIG_INVALID (10_state.md
R38, R39); and in bounds of the job while BUSY. -/
def ProgressOk (s : State) : Prop :=
  s.inPos.toNat ≤ s.params.inSize ∧ s.outLen.toNat ≤ s.params.outSize ∧
    ((s.phase = .idle ∨ s.err = .configInvalid) → s.inPos = 0#32 ∧ s.outLen = 0#32) ∧
    (s.phase = .busy → JobInBounds s)

/-- The invariant of the machine. -/
def MachineInv (s : State) : Prop := MemoryOk s ∧ ErrMatchesState s ∧ ProgressOk s

/-- The input of the running job, IN[0..IN_LEN). -/
def jobInput (s : State) : List Byte := inSlice s 0 s.inLen.toNat

/-- Encode of the job's input (40_partitioner.md R94). -/
def jobEncoding (s : State) : List Byte := encodeInput (readIn s) s.inLen.toNat

/-- The segments of the job's partition (40_partitioner.md R93). -/
def jobPartition (s : State) : List Segment := partition (readIn s) s.inLen.toNat

/-- 10_state.md R38 (c): what is written so far decodes to what is covered so far. -/
def WrittenDecodes (s : State) : Prop :=
  refDecode (outSlice s 0 s.outLen.toNat) = .ok (inSlice s 0 s.inPos.toNat)

/-- 10_state.md R38 (d): what is written so far is the first segments of the job's partition, each whole, and what is covered
so far is the input they cover. -/
def WrittenIsWholeSegments (s : State) : Prop :=
  ∃ k, k ≤ (jobPartition s).length ∧
    outSlice s 0 s.outLen.toNat = ((jobPartition s).take k).flatMap (segmentBytes (readIn s)) ∧
    s.inPos.toNat = (((jobPartition s).take k).map Segment.len).sum

/-- What is written so far and what the rest of the input will give are together Encode of the whole input. -/
def WrittenBeginsEncoding (s : State) : Prop :=
  outSlice s 0 s.outLen.toNat ++ encodeFrom (readIn s) s.inLen.toNat s.inPos.toNat = jobEncoding s

/-- R38 (c) of a running job. -/
def DecodesSoFar (s : State) : Prop := s.phase = .busy → WrittenDecodes s

/-- R38 (d) of a running job, as a beginning of its encoding. -/
def EncodesSoFar (s : State) : Prop := s.phase = .busy → WrittenBeginsEncoding s

/-- The last START was accepted, and no reset came since: the span of 10_state.md R38. STATE is BUSY, DONE, or ERROR from the
capacity check. -/
def JobAccepted (s : State) : Prop := s.phase ≠ .idle ∧ s.err ≠ .configInvalid

/-- `P` holds if the state lies in the span of 10_state.md R38. -/
def SinceStart (P : State → Prop) (s : State) : Prop := JobAccepted s → P s

/-- The host operation the next turn makes, where it makes one. -/
def nextHostOp (s : State) : Option Instr :=
  match s.turns with
  | .host a :: _ => (decodeAccess a).toOption
  | _            => none

/-- A job that a START has just begun, with only the engine to move. -/
def JobBegun (s : State) : Prop :=
  s.phase = .busy ∧ s.err = .none ∧ s.inPos = 0#32 ∧ s.outLen = 0#32 ∧ s.turns = [] ∧
    s.inLen.toNat ≤ s.params.inSize ∧ s.outCap.toNat ≤ s.params.outSize ∧ s.params.Legal

/-- `k` steps, stopping at the first fault or refusal. -/
def runSteps : Nat → State → Host.Outcome State Fault Refusal
  | 0, s => .next s
  | k + 1, s =>
    match step s with
    | .next t    => runSteps k t
    | .fault r   => .fault r
    | .refused r => .refused r

end Sys2Proof.Machine
end

