-- ==== Sys2Proof/Certificates/Slice0/Obligations.lean ====
section
/-! DEFINITION. The statements for the provers, from the spec's numbered rules. A statement about a free value
(Config.freeByte, Config.initIn, Config.initOut, the sizes) holds whatever that value is. -/

open Sys2Proof Sys2Proof.Machine

/-! ### Encodings -/

/-- 30_encoding.md R79, R80: each form has one encoding, and decoding it gives the operation back, with every operand at
every value its encoding admits. -/
def Obligations.DecodeOfEncodeIsIdentity : Prop :=
  ∀ (i : Instr) (e : Encoded), WellFormed i = true → encode i = some e → decode e = .ok i

/-- 30_encoding.md R63, R70: segments lie end to end, and a reader of a stream takes exactly the segment at its front, whose
length its control byte tells. -/
def Obligations.SegmentIsReadFromStreamFront : Prop :=
  ∀ (i : Instr) (bytes rest : List Byte), WellFormed i = true → encode i = some (.segment bytes) →
    decodeSegment (bytes ++ rest) = .ok (i, rest) ∧ bytes.length = segLen (bytes.headD 0#8)

/-- 30_encoding.md R79: what a segment decodes to is well formed, and encodes to the bytes that were read. -/
def Obligations.DecodedSegmentEncodesBack : Prop :=
  ∀ (s rest : List Byte) (i : Instr), decodeSegment s = .ok (i, rest) →
    WellFormed i = true ∧ ∃ bytes, encode i = some (.segment bytes) ∧ s = bytes ++ rest

/-- 30_encoding.md R64 to R67: the three classes of the control byte and their payloads. -/
def Obligations.ControlByteSelectsClass : Prop :=
  (∀ (n : Byte) (payload rest : List Byte), n.toNat ≤ 0x7F → payload.length = n.toNat + 1 →
    decodeSegment (n :: payload ++ rest) = .ok (.lit payload, rest)) ∧
  (∀ (n : Byte) (rest : List Byte), n = 0x80#8 → decodeSegment (n :: rest) = .ok (.rsvd, rest)) ∧
  (∀ (n b : Byte) (rest : List Byte), 0x81 ≤ n.toNat →
    decodeSegment (n :: b :: rest) = .ok (.run (257 - n.toNat) b, rest))

/-- 30_encoding.md R68, R69, R72, R73: the length and count a control byte gives, and the control byte a length gives. -/
def Obligations.ControlByteArithmetic : Prop :=
  (∀ n : Byte, n.toNat ≤ 0x7F → litLength n = n.toNat + 1 ∧ 1 ≤ litLength n ∧ litLength n ≤ 128) ∧
  (∀ n : Byte, 0x81 ≤ n.toNat →
    runCount n = 257 - n.toNat ∧ (runCount n : Int) = 1 - n.toInt ∧ 2 ≤ runCount n ∧ runCount n ≤ 128) ∧
  (∀ len : Nat, 2 ≤ len → len ≤ 128 →
    (runControl len).toNat = 257 - len ∧ runControl len = BitVec.ofInt 8 (1 - (len : Int))) ∧
  (∀ len : Nat, 2 ≤ len → len ≤ 127 → 0x82 ≤ (runControl len).toNat) ∧
  (∀ len : Nat, 1 ≤ len → len ≤ 128 → (litControl len).toNat = len - 1)

/-- 20_memory.md R47: exactly the aligned 32-bit register accesses below 0x20 and the one-byte buffer accesses are
operations; the turn of any other access is refused. -/
def Obligations.OtherAccessesAreRefused : Prop :=
  ∀ (a : HostAccess) (s : State),
    ((∃ i, decodeAccess a = .ok i) ↔
      (a.space = .reg ∧ a.width = 32 ∧ a.addr.toNat % 4 = 0 ∧ a.addr.toNat < 0x20) ∨
        (a.space ≠ .reg ∧ a.width = 8)) ∧
    ((¬ ∃ i, decodeAccess a = .ok i) → ∃ r, hostTurn a s = .refused (.accessRefused r))

/-- Words written out from 30_encoding.md R79 and from the encodings of 95_test_vectors.md P1, V5. -/
def Obligations.DecodeOfWordsWrittenOut : Prop :=
  decode (.segment [0x00#8, 0xAB#8]) = .ok (.lit [0xAB#8]) ∧
  decode (.segment [0xFE#8, 0xF0#8]) = .ok (.run 3 0xF0#8) ∧
  decode (.segment [0x81#8, 0x07#8]) = .ok (.run 128 0x07#8) ∧
  decode (.segment [0x80#8]) = .ok .rsvd ∧
  decode (.access ⟨.reg, 0x00#32, 32, .write, 0x00000001#32⟩) = .ok (.hostStart 0#31) ∧
  decode (.access ⟨.reg, 0x00#32, 32, .write, 0xFFFFFFFE#32⟩) = .ok (.hostWrCtrl0 0x7FFFFFFF#31) ∧
  decode (.access ⟨.reg, 0x14#32, 32, .read, 0#32⟩) = .ok (.hostRdReg .outLen) ∧
  decode (.access ⟨.reg, 0x0C#32, 32, .write, 0x00000010#32⟩) = .ok (.hostWrOutCap 16#32) ∧
  decode (.access ⟨.inBuf, 0#32, 8, .write, 0x000000AB#32⟩) = .ok (.hostWrIn 0#32 0xAB#8) ∧
  decode (.access ⟨.reg, 0x02#32, 32, .read, 0#32⟩) = .error (.access .regMisaligned)

/-! ### The meaning of a PacketStream -/

/-- 30_encoding.md R75, R76: what LIT, RSVD and RUN add to RefDecode's output. That a segment's meaning is RefDecode's,
held beside the engine, is the model's choice (log 8). -/
def Obligations.SegmentsExtendRefOut : Prop :=
  ∀ s : State,
    (∀ payload, exec (.lit payload) s = .next { s with refOut := s.refOut ++ payload }) ∧
    exec .rsvd s = .next s ∧
    (∀ count b, exec (.run count b) s = .next { s with refOut := s.refOut ++ List.replicate count b })

/-- 30_encoding.md R75: the reference reader, turn by turn, computes RefDecode of the stream it is given, and leaves the
engine alone. The reader is the model's device (log 8). -/
def Obligations.ReferenceReaderComputesRefDecode : Prop :=
  ∀ (s : State) (ts : List Turn), s.refOut = [] → s.refError = none →
    s.turns = List.replicate s.refStream.length .reference ++ ts →
    ∃ t, runSteps s.refStream.length s = .next t ∧ t.turns = ts ∧ SameEngine s t ∧
      match refDecode s.refStream with
      | .ok out  => t.refError = none ∧ t.refStream = [] ∧ t.refOut = out
      | .error e => t.refError = some e

/-- 30_encoding.md R63, R75: RefDecode of two streams end to end, the first of whole segments, is RefDecode of each. -/
def Obligations.RefDecodeOfConcatenation : Prop :=
  ∀ (a b u : List Byte), refDecode a = .ok u →
    refDecode (a ++ b) =
      match refDecode b with
      | .ok v    => .ok (u ++ v)
      | .error e => .error e

/-- 30_encoding.md R77: the two errors of RefDecode, wherever in a stream of whole segments they come. -/
def Obligations.RefDecodeReportsTruncation : Prop :=
  ∀ (before u : List Byte), refDecode before = .ok u →
    (∀ (n : Byte) (payload : List Byte), n.toNat ≤ 0x7F → payload.length < n.toNat + 1 →
      refDecode (before ++ n :: payload) = .error .truncatedLiteral) ∧
    (∀ n : Byte, 0x81 ≤ n.toNat → refDecode (before ++ [n]) = .error .truncatedRun)

/-! ### The step -/

/-- 20_memory.md R57 and 41_control_byte_writer.md R105: a step takes the first turn of the list and runs the instruction
that turn decodes to or selects. A turn of a quiescent engine passes, and with no turn to come a BUSY engine steps. That
the interleaving is a list in the state is the model's choice (logs 1, 2, 3). A reference turn is no action of R57: it is the
model's device for RefDecode (30_encoding.md R75; log 8). -/
def Obligations.StepRunsDecodedInstruction : Prop :=
  (∀ (s : State) (a : HostAccess) (ts : List Turn) (i : Instr),
    s.turns = .host a :: ts → decodeAccess a = .ok i → step s = exec i { s with turns := ts }) ∧
  (∀ (s : State) (ts : List Turn) (i : Instr) (rest : List Byte),
    s.turns = .reference :: ts → s.refError = none → decodeSegment s.refStream = .ok (i, rest) →
    step s = exec i { s with turns := ts, refStream := rest }) ∧
  (∀ (s : State) (ts : List Turn) (i : Instr),
    s.turns = .engine :: ts → s.phase = .busy → engineChoice s = some i →
    step s = exec i { s with turns := ts }) ∧
  (∀ (s : State) (ts : List Turn),
    s.turns = .engine :: ts → s.phase ≠ .busy → step s = .next { s with turns := ts }) ∧
  (∀ (s : State) (i : Instr),
    s.turns = [] → s.phase = .busy → engineChoice s = some i → step s = exec i s) ∧
  (∀ s : State, s.turns = [] → s.phase ≠ .busy → step s = .next s)

/-- Every step takes the first turn off the list, and no step changes the parameters (00_scope.md R6). The list, and that the
state carries the parameters, are the model's choices (logs 1, 4). -/
def Obligations.StepTakesOneTurnAndKeepsParameters : Prop :=
  ∀ s t : State, step s = .next t → t.turns = s.turns.tail ∧ t.params = s.params

/-! ### Host operations on registers -/

/-- 42_host_commands.md R122, R123 and 60_exceptions.md R141. -/
def Obligations.StartBeginsJobOrReportsConfig : Prop :=
  (∀ v : Word, v.getLsbD 0 = true →
    decodeAccess ⟨.reg, 0x00#32, 32, .write, v⟩ = .ok (.hostStart (v.extractLsb' 1 31))) ∧
  ∀ (u : BitVec 31) (s : State),
    exec (.hostStart u) s = .next
      (if s.phase = .busy then s
       else if s.params.inSize < s.inLen.toNat ∨ s.params.outSize < s.outCap.toNat then
         { s with phase := .error, err := .configInvalid, inPos := 0#32, outLen := 0#32 }
       else { s with phase := .busy, err := .none, inPos := 0#32, outLen := 0#32 })

/-- 42_host_commands.md R124. -/
def Obligations.CtrlReadsZeroAndClearBitDoesNothing : Prop :=
  (∀ v : Word, v.getLsbD 0 = false →
    decodeAccess ⟨.reg, 0x00#32, 32, .write, v⟩ = .ok (.hostWrCtrl0 (v.extractLsb' 1 31))) ∧
  (∀ v : Word, decodeAccess ⟨.reg, 0x00#32, 32, .read, v⟩ = .ok .hostRdCtrl) ∧
  ∀ s : State,
    (∀ u : BitVec 31, exec (.hostWrCtrl0 u) s = .next s) ∧
    exec .hostRdCtrl s = .next { s with hostRead := .word 0x00000000#32 }

/-- 42_host_commands.md R125: the word, and the five values, where ERR is NONE exactly when STATE is not ERROR
(10_state.md R28). -/
def Obligations.StatusReadReturnsCodes : Prop :=
  (∀ v : Word, decodeAccess ⟨.reg, 0x04#32, 32, .read, v⟩ = .ok .hostRdStatus) ∧
  (∀ s : State, exec .hostRdStatus s =
    .next { s with hostRead := .word ((errCode s.err).setWidth 32 <<< 4 ||| (stateCode s.phase).setWidth 32) }) ∧
  (∀ s : State, ErrMatchesState s →
    statusWord s =
      match s.phase, s.err with
      | .idle,  _                      => 0x00000000#32
      | .busy,  _                      => 0x00000001#32
      | .done,  _                      => 0x00000002#32
      | .error, .outputBufferExhausted => 0x00000013#32
      | .error, _                      => 0x00000023#32)

/-- 42_host_commands.md R126, R127. -/
def Obligations.LengthRegistersStoreUnlessBusy : Prop :=
  (∀ v : Word, decodeAccess ⟨.reg, 0x08#32, 32, .write, v⟩ = .ok (.hostWrInLen v) ∧
    decodeAccess ⟨.reg, 0x0C#32, 32, .write, v⟩ = .ok (.hostWrOutCap v)) ∧
  ∀ (v : Word) (s : State),
    exec (.hostWrInLen v) s = .next (if s.phase = .busy then s else { s with inLen := v }) ∧
    exec (.hostWrOutCap v) s = .next (if s.phase = .busy then s else { s with outCap := v })

/-- 42_host_commands.md R128. -/
def Obligations.DataRegistersReadWhole : Prop :=
  (∀ v : Word,
    decodeAccess ⟨.reg, 0x08#32, 32, .read, v⟩ = .ok (.hostRdReg .inLen) ∧
    decodeAccess ⟨.reg, 0x0C#32, 32, .read, v⟩ = .ok (.hostRdReg .outCap) ∧
    decodeAccess ⟨.reg, 0x10#32, 32, .read, v⟩ = .ok (.hostRdReg .inPos) ∧
    decodeAccess ⟨.reg, 0x14#32, 32, .read, v⟩ = .ok (.hostRdReg .outLen)) ∧
  ∀ s : State,
    exec (.hostRdReg .inLen) s = .next { s with hostRead := .word s.inLen } ∧
    exec (.hostRdReg .outCap) s = .next { s with hostRead := .word s.outCap } ∧
    exec (.hostRdReg .inPos) s = .next { s with hostRead := .word s.inPos } ∧
    exec (.hostRdReg .outLen) s = .next { s with hostRead := .word s.outLen }

/-- 42_host_commands.md R129. -/
def Obligations.ReadOnlyRegistersIgnoreWrites : Prop :=
  (∀ v : Word,
    decodeAccess ⟨.reg, 0x04#32, 32, .write, v⟩ = .ok (.hostWrRo .status v) ∧
    decodeAccess ⟨.reg, 0x10#32, 32, .write, v⟩ = .ok (.hostWrRo .inPos v) ∧
    decodeAccess ⟨.reg, 0x14#32, 32, .write, v⟩ = .ok (.hostWrRo .outLen v)) ∧
  ∀ (r : RoReg) (v : Word) (s : State), exec (.hostWrRo r v) s = .next s

/-- 42_host_commands.md R130. -/
def Obligations.ReservedOffsetsReadZeroIgnoreWrites : Prop :=
  (∀ v : Word,
    decodeAccess ⟨.reg, 0x18#32, 32, .read, v⟩ = .ok (.hostRsvd .at18 .read) ∧
    decodeAccess ⟨.reg, 0x1C#32, 32, .read, v⟩ = .ok (.hostRsvd .at1C .read) ∧
    decodeAccess ⟨.reg, 0x18#32, 32, .write, v⟩ = .ok (.hostRsvd .at18 (.write v)) ∧
    decodeAccess ⟨.reg, 0x1C#32, 32, .write, v⟩ = .ok (.hostRsvd .at1C (.write v))) ∧
  ∀ (r : RsvdReg) (s : State),
    exec (.hostRsvd r .read) s = .next { s with hostRead := .word 0x00000000#32 } ∧
    ∀ v : Word, exec (.hostRsvd r (.write v)) s = .next s

/-- 70_reset_and_hazards.md R167: a read of IN_LEN or OUT_CAP right after a write of it, while not BUSY, returns the written
value. -/
def Obligations.ReadAfterRegisterWriteReturnsIt : Prop :=
  ∀ (v : Word) (s : State), s.phase ≠ .busy →
    (∃ t u, exec (.hostWrInLen v) s = .next t ∧ exec (.hostRdReg .inLen) t = .next u ∧ u.hostRead = .word v) ∧
    (∃ t u, exec (.hostWrOutCap v) s = .next t ∧ exec (.hostRdReg .outCap) t = .next u ∧ u.hostRead = .word v)

/-! ### Host operations on buffers -/

/-- 42_host_commands.md R131, and that OUT is another memory (20_memory.md R44). -/
def Obligations.WriteInStoresUnlessBusy : Prop :=
  (∀ (a : Word) (v : Byte), decodeAccess ⟨.inBuf, a, 8, .write, v.setWidth 32⟩ = .ok (.hostWrIn a v)) ∧
  ∀ (a : Word) (v : Byte) (s : State), a.toNat < s.params.inSize →
    ∃ t, exec (.hostWrIn a v) s = .next t ∧ t = { s with inBuf := t.inBuf } ∧
      (s.phase = .busy → t = s) ∧
      (s.phase ≠ .busy → readIn t a.toNat = v) ∧
      (∀ b, b ≠ a.toNat → readIn t b = readIn s b) ∧
      (∀ b, readOut t b = readOut s b)

/-- 42_host_commands.md R132. -/
def Obligations.ReadInReturnsByteInAnyState : Prop :=
  (∀ a v : Word, decodeAccess ⟨.inBuf, a, 8, .read, v⟩ = .ok (.hostRdIn a)) ∧
  ∀ (a : Word) (s : State), a.toNat < s.params.inSize →
    exec (.hostRdIn a) s = .next { s with hostRead := .byte (readIn s a.toNat) }

/-- 42_host_commands.md R133, and that IN is another memory (20_memory.md R44). -/
def Obligations.WriteOutStoresUnlessBusy : Prop :=
  (∀ (a : Word) (v : Byte), decodeAccess ⟨.outBuf, a, 8, .write, v.setWidth 32⟩ = .ok (.hostWrOut a v)) ∧
  ∀ (a : Word) (v : Byte) (s : State), a.toNat < s.params.outSize →
    ∃ t, exec (.hostWrOut a v) s = .next t ∧ t = { s with outBuf := t.outBuf } ∧
      (s.phase = .busy → t = s) ∧
      (s.phase ≠ .busy → readOut t a.toNat = v) ∧
      (∀ b, b ≠ a.toNat → readOut t b = readOut s b) ∧
      (∀ b, readIn t b = readIn s b)

/-- 42_host_commands.md R134: draw() while BUSY, else the byte. That a draw is `Config.freeByte` of a counter is the model's
choice (log 7); the statement holds whatever that value is. -/
def Obligations.ReadOutDrawsWhileBusy : Prop :=
  (∀ a v : Word, decodeAccess ⟨.outBuf, a, 8, .read, v⟩ = .ok (.hostRdOut a)) ∧
  ∀ (a : Word) (s : State), a.toNat < s.params.outSize →
    exec (.hostRdOut a) s = .next
      (if s.phase = .busy then { s with hostRead := .byte (Config.freeByte s.draws), draws := s.draws + 1 }
       else { s with hostRead := .byte (readOut s a.toNat) })

/-- 42_host_commands.md R135: buffer accesses beyond the size, and accesses of another width or alignment. The refusals' names,
and which one an access wrong in two ways gets, are the model's choice (log 11). -/
def Obligations.BufferAccessBeyondSizeIsRefused : Prop :=
  (∀ (a : Word) (v : Byte) (s : State), s.params.inSize ≤ a.toNat →
    exec (.hostWrIn a v) s = .refused .bufferAddressBeyondSize ∧
    exec (.hostRdIn a) s = .refused .bufferAddressBeyondSize) ∧
  (∀ (a : Word) (v : Byte) (s : State), s.params.outSize ≤ a.toNat →
    exec (.hostWrOut a v) s = .refused .bufferAddressBeyondSize ∧
    exec (.hostRdOut a) s = .refused .bufferAddressBeyondSize) ∧
  (∀ (a : HostAccess) (s : State), a.space ≠ .reg → a.width ≠ 8 →
    hostTurn a s = .refused (.accessRefused .bufferWidth)) ∧
  (∀ (a : HostAccess) (s : State), a.space = .reg → a.width ≠ 32 →
    hostTurn a s = .refused (.accessRefused .regWidth)) ∧
  (∀ (a : HostAccess) (s : State), a.space = .reg → a.width = 32 → a.addr.toNat % 4 ≠ 0 →
    hostTurn a s = .refused (.accessRefused .regMisaligned))

/-! ### Whole-machine rules -/

/-- 20_memory.md R49: no read has a side effect, and the same read twice returns the same value, but for a read of OUT while
BUSY. -/
def Obligations.ReadsHaveNoSideEffect : Prop :=
  ∀ (i : Instr) (s t : State),
    (i = .hostRdCtrl ∨ i = .hostRdStatus ∨ (∃ r, i = .hostRdReg r) ∨ (∃ r, i = .hostRsvd r .read) ∨
      (∃ a, i = .hostRdIn a) ∨ (∃ a, i = .hostRdOut a)) →
    exec i s = .next t →
    SameEngine s t ∧ t.turns = s.turns ∧
      ((s.phase ≠ .busy ∨ ∀ a, i ≠ .hostRdOut a) → ∃ u, exec i t = .next u ∧ u.hostRead = t.hostRead)

/-- 70_reset_and_hazards.md R162, R163, R164: while BUSY no host operation changes the engine's registers or buffers. -/
def Obligations.BusyEngineIgnoresHost : Prop :=
  ∀ (i : Instr) (s t : State), isHostOp i = true → s.phase = .busy → exec i s = .next t → SameEngine s t

/-- 10_state.md R31, R32, R36, 41_control_byte_writer.md R110: which instructions can change each part of the state. The clauses
on the turns, the parameters, the last host read, the count of draws and RefDecode's variables are about the model's own
fields (logs 1, 4, 6, 7, 8). -/
def Obligations.OnlyNamedInstructionsWriteEachPart : Prop :=
  ∀ (i : Instr) (s t : State), exec i s = .next t →
    (t.phase ≠ s.phase ∨ t.err ≠ s.err → (∃ u, i = .hostStart u) ∨ i = .finish ∨ i = .exhaust) ∧
    (t.inPos ≠ s.inPos ∨ t.outLen ≠ s.outLen →
      (∃ u, i = .hostStart u) ∨ (∃ l, i = .emitRun l) ∨ (∃ l, i = .emitLit l)) ∧
    (t.inLen ≠ s.inLen → ∃ v, i = .hostWrInLen v) ∧
    (t.outCap ≠ s.outCap → ∃ v, i = .hostWrOutCap v) ∧
    (t.inBuf ≠ s.inBuf → ∃ a v, i = .hostWrIn a v) ∧
    (t.outBuf ≠ s.outBuf → (∃ a v, i = .hostWrOut a v) ∨ (∃ l, i = .emitRun l) ∨ (∃ l, i = .emitLit l)) ∧
    (t.refOut ≠ s.refOut → (∃ p, i = .lit p) ∨ (∃ c b, i = .run c b)) ∧
    (t.draws ≠ s.draws → ∃ a, i = .hostRdOut a) ∧
    (t.hostRead ≠ s.hostRead →
      i = .hostRdCtrl ∨ i = .hostRdStatus ∨ (∃ r, i = .hostRdReg r) ∨ (∃ r, i = .hostRsvd r .read) ∨
        (∃ a, i = .hostRdIn a) ∨ (∃ a, i = .hostRdOut a)) ∧
    t.params = s.params ∧ t.turns = s.turns ∧ t.refStream = s.refStream ∧ t.refError = s.refError

/-- 20_memory.md R61: from a BUSY engine, no step changes IN, and while the job runs on, none changes IN_LEN or OUT_CAP. -/
def Obligations.InputIsFixedDuringJob : Prop :=
  ∀ s t : State, s.phase = .busy → step s = .next t →
    (∀ a, readIn t a = readIn s a) ∧ (t.phase = .busy → t.inLen = s.inLen ∧ t.outCap = s.outCap)

/-- Two memories in canonical form that read the same everywhere are the same data. The canonical form is the model's
choice (log 5). -/
def Obligations.CanonicalMemoriesReadAlikeAreEqual : Prop :=
  ∀ (d : Nat → Byte) (size : Nat) (m n : List Host.Cell),
    Memory.wf d size m = true → Memory.wf d size n = true →
    (∀ a, Memory.read d m a = Memory.read d n a) → m = n

/-! ### The partitioner and the encoder -/

/-- 40_partitioner.md R95. -/
def Obligations.RunSegmentsAreMaximalRuns : Prop :=
  ∀ (x : Nat → Byte) (n : Nat) (g : Segment), g ∈ partition x n → g.kind = .run →
    (2 ≤ g.len ∧ g.len ≤ 127) ∧
    (∀ k, k < g.len → x (g.start + k) = x g.start) ∧
    (g.len < 127 → g.start + g.len = n ∨ x (g.start + g.len) ≠ x g.start)

/-- 40_partitioner.md R96. -/
def Obligations.LiteralSpansStopAtRuns : Prop :=
  ∀ (x : Nat → Byte) (n : Nat) (g : Segment), g ∈ partition x n → g.kind = .lit →
    (1 ≤ g.len ∧ g.len ≤ 128) ∧
    (∀ k, g.start ≤ k → k < g.start + g.len → k + 1 = n ∨ x k ≠ x (k + 1)) ∧
    (g.len < 128 → g.start + g.len < n →
      runStart x n (g.start + g.len) = true ∧
        ∃ h, h ∈ partition x n ∧ h.start = g.start + g.len ∧ h.kind = .run)

/-- 40_partitioner.md R93, R97, and the least number of segments of 41_control_byte_writer.md R113: the segments lie end to
end over the whole input, each the one PARTITION gives where it starts. -/
def Obligations.PartitionTilesTheInput : Prop :=
  ∀ (x : Nat → Byte) (n : Nat),
    ((partition x n).map Segment.len).sum = n ∧
    (partition x n).length ≤ n ∧
    (n + 127) / 128 ≤ (partition x n).length ∧
    (∀ (k : Nat) (g : Segment), (partition x n)[k]? = some g →
      g.start = (((partition x n).take k).map Segment.len).sum ∧ g = partitionAt x n g.start ∧ 1 ≤ g.len) ∧
    (encodeInput x n).length = ((partition x n).map fun g => outLength g.kind g.len).sum

/-- 30_encoding.md R71: the control bytes the encoder writes, and that it writes neither 0x80 nor 0x81 as one. -/
def Obligations.EncoderNeverEmitsReservedControl : Prop :=
  ∀ (x : Nat → Byte) (n : Nat) (g : Segment), g ∈ partition x n →
    ∃ (c : Byte) (payload : List Byte), segmentBytes x g = c :: payload ∧ c ≠ 0x80#8 ∧ c ≠ 0x81#8 ∧
      (g.kind = .run → 0x82 ≤ c.toNat ∧ payload.length = 1) ∧
      (g.kind = .lit → c.toNat ≤ 0x7F ∧ payload.length = c.toNat + 1)

/-- 40_partitioner.md R98: the output bound, and an input of every length 3m that reaches it. -/
def Obligations.OutputNeverExceedsBound : Prop :=
  (∀ (x : Nat → Byte) (n : Nat), (encodeInput x n).length ≤ n + (n + 2) / 3) ∧
  ∀ m : Nat, (encodeInput (fun j => if j % 3 = 0 then 0x01#8 else 0x02#8) (3 * m)).length = 3 * m + (3 * m + 2) / 3

/-- 40_partitioner.md R100: inputs with no two adjacent equal bytes. -/
def Obligations.InputWithoutRunsIsAllSpans : Prop :=
  ∀ (x : Nat → Byte) (n : Nat), (∀ k, k + 1 < n → x k ≠ x (k + 1)) →
    partition x n = (List.range ((n + 127) / 128)).map (fun q => ⟨.lit, 128 * q, min 128 (n - 128 * q)⟩) ∧
    (encodeInput x n).length = n + (n + 127) / 128

/-- 40_partitioner.md R101: inputs of equal bytes. -/
def Obligations.EqualBytesEncodeAsCappedRuns : Prop :=
  ∀ (x : Nat → Byte) (n : Nat) (b : Byte), (∀ k, k < n → x k = b) →
    encodeInput x n =
      (List.replicate (n / 127) [0x82#8, b]).flatten ++
        (if n % 127 = 0 then [] else if n % 127 = 1 then [0x00#8, b] else [u8 (257 - n % 127), b])

/-- 30_encoding.md R78, 40_partitioner.md R94: RefDecode(Encode(x)) = x for every input. -/
def Obligations.EncodingRoundTrips : Prop :=
  ∀ (x : Nat → Byte) (n : Nat), refDecode (encodeInput x n) = .ok (inputBytes x n)

/-- 40_partitioner.md R92, R99: at every position of every input a pair of equal bytes starts a run of at least 2, and
anything else a span; with the rules' own inputs. -/
def Obligations.PairsAreAlwaysRuns : Prop :=
  (∀ (x : Nat → Byte) (n i : Nat), i < n →
    (i + 1 < n ∧ x i = x (i + 1) →
      (partitionAt x n i).kind = .run ∧ (partitionAt x n i).start = i ∧ 2 ≤ (partitionAt x n i).len) ∧
    (¬ (i + 1 < n ∧ x i = x (i + 1)) →
      (partitionAt x n i).kind = .lit ∧ (partitionAt x n i).start = i ∧ 1 ≤ (partitionAt x n i).len)) ∧
  encodeInput (fun j => [0x01#8, 0x02#8, 0x02#8, 0x03#8].getD j 0#8) 4 =
    [0x00#8, 0x01#8, 0xFF#8, 0x02#8, 0x00#8, 0x03#8] ∧
  partitionAt (fun _ => 0xAA#8) 2 0 = ⟨.run, 0, 2⟩ ∧
  partitionAt (fun j => [0xAA#8, 0xBB#8].getD j 0#8) 2 0 = ⟨.lit, 0, 2⟩

/-! ### Engine steps -/

/-- 41_control_byte_writer.md R105: the dispatch, that an enabled step is exactly the one it selects, and that there is none
unless BUSY. That another step is refused, and under which name, is the model's (log 13), and so is that the engine's turn
passes outside BUSY (log 3). -/
def Obligations.DispatchSelectsExactlyOneStep : Prop :=
  ∀ s : State,
    (s.phase = .busy → JobInBounds s →
      engineChoice s = some
        (if s.inPos = s.inLen then .finish
         else if s.outCap.toNat < s.outLen.toNat +
             (match (jobSegment s).kind with | .run => 2 | .lit => (jobSegment s).len + 1) then .exhaust
         else match (jobSegment s).kind with
           | .run => .emitRun (jobSegment s).len
           | .lit => .emitLit (jobSegment s).len) ∧
      ∀ j, isEngineStep j = true →
        ((∃ t, exec j s = .next t) ↔ engineChoice s = some j) ∧
        (engineChoice s ≠ some j → exec j s = .refused .engineStepNotSelected)) ∧
    (s.phase ≠ .busy →
      engineTurn s = .next s ∧ ∀ j, isEngineStep j = true → exec j s = .refused .engineNotEnabled)

/-- 41_control_byte_writer.md R106. -/
def Obligations.FinishEndsInDone : Prop :=
  ∀ s : State, s.phase = .busy → s.inPos = s.inLen → exec .finish s = .next { s with phase := .done }

/-- 41_control_byte_writer.md R107, R110. -/
def Obligations.EmitRunWritesControlAndByte : Prop :=
  ∀ (s : State) (len : Nat), s.phase = .busy → s.inPos.toNat < s.inLen.toNat →
    s.inLen.toNat ≤ s.params.inSize → s.outCap.toNat ≤ s.params.outSize →
    partitionAt (readIn s) s.inLen.toNat s.inPos.toNat = ⟨.run, s.inPos.toNat, len⟩ →
    s.outLen.toNat + 2 ≤ s.outCap.toNat →
    ∃ t, exec (.emitRun len) s = .next t ∧
      t = { s with outBuf := t.outBuf, outLen := t.outLen, inPos := t.inPos } ∧
      (readOut t s.outLen.toNat).toNat = 257 - len ∧ 0x82 ≤ (readOut t s.outLen.toNat).toNat ∧
      readOut t (s.outLen.toNat + 1) = readIn s s.inPos.toNat ∧
      (∀ a, a < s.outLen.toNat ∨ s.outLen.toNat + 2 ≤ a → readOut t a = readOut s a) ∧
      t.outLen.toNat = s.outLen.toNat + 2 ∧ t.inPos.toNat = s.inPos.toNat + len

/-- 41_control_byte_writer.md R108, R110. -/
def Obligations.EmitLitWritesControlAndSpan : Prop :=
  ∀ (s : State) (len : Nat), s.phase = .busy → s.inPos.toNat < s.inLen.toNat →
    s.inLen.toNat ≤ s.params.inSize → s.outCap.toNat ≤ s.params.outSize →
    partitionAt (readIn s) s.inLen.toNat s.inPos.toNat = ⟨.lit, s.inPos.toNat, len⟩ →
    s.outLen.toNat + len + 1 ≤ s.outCap.toNat →
    ∃ t, exec (.emitLit len) s = .next t ∧
      t = { s with outBuf := t.outBuf, outLen := t.outLen, inPos := t.inPos } ∧
      (readOut t s.outLen.toNat).toNat = len - 1 ∧ (readOut t s.outLen.toNat).toNat ≤ 0x7F ∧
      (∀ k, k < len → readOut t (s.outLen.toNat + 1 + k) = readIn s (s.inPos.toNat + k)) ∧
      (∀ a, a < s.outLen.toNat ∨ s.outLen.toNat + len + 1 ≤ a → readOut t a = readOut s a) ∧
      t.outLen.toNat = s.outLen.toNat + len + 1 ∧ t.inPos.toNat = s.inPos.toNat + len

/-- 41_control_byte_writer.md R109, 60_exceptions.md R140. -/
def Obligations.ExhaustReportsAndWritesNothing : Prop :=
  ∀ s : State, s.phase = .busy → s.inPos.toNat < s.inLen.toNat → s.inLen.toNat ≤ s.params.inSize →
    s.outCap.toNat < s.outLen.toNat +
      (match (partitionAt (readIn s) s.inLen.toNat s.inPos.toNat).kind with
        | .run => 2
        | .lit => (partitionAt (readIn s) s.inLen.toNat s.inPos.toNat).len + 1) →
    exec .exhaust s = .next { s with phase := .error, err := .outputBufferExhausted }

/-- 20_memory.md R50, R51, R52: an engine step reads no byte of OUT and writes none below OUT_LEN or from OUT_CAP on, and it
writes no byte of IN. -/
def Obligations.EngineStepStaysInsideCapacity : Prop :=
  ∀ s t : State, s.phase = .busy → engineTurn s = .next t →
    (∀ a, readIn t a = readIn s a) ∧
    (∀ a, a < s.outLen.toNat ∨ s.outCap.toNat ≤ a → readOut t a = readOut s a)

/-- 20_memory.md R50, 41_control_byte_writer.md R113: an engine step's result depends on the job's registers and on
IN[0..IN_LEN) alone: not on the rest of IN, not on OUT, not on the parameters. -/
def Obligations.EngineStepSeesOnlyJobInput : Prop :=
  ∀ s1 s2 : State, s1.phase = .busy → s2.phase = .busy → s1.err = s2.err →
    s1.inLen = s2.inLen → s1.outCap = s2.outCap → s1.inPos = s2.inPos → s1.outLen = s2.outLen →
    JobInBounds s1 → JobInBounds s2 → (∀ a, a < s1.inLen.toNat → readIn s1 a = readIn s2 a) →
    ∃ t1 t2, engineTurn s1 = .next t1 ∧ engineTurn s2 = .next t2 ∧
      t1.phase = t2.phase ∧ t1.err = t2.err ∧ t1.inPos = t2.inPos ∧ t1.outLen = t2.outLen ∧
      ∀ a, s1.outLen.toNat ≤ a → a < t1.outLen.toNat → readOut t1 a = readOut t2 a

/-! ### Whole jobs -/

/-- 41_control_byte_writer.md R111: a job whose encoding fits takes one EMIT step per segment and one FINISH, and ends in
DONE with Encode(x) in OUT. That a BUSY engine steps when no turn is to come is the model's choice, unsafe for a claim that a
job ends (log 2). -/
def Obligations.JobThatFitsEndsWithEncoding : Prop :=
  ∀ s : State, JobBegun s → (jobEncoding s).length ≤ s.outCap.toNat →
    (∀ k, k ≤ (jobPartition s).length → ∃ t, runSteps k s = .next t ∧ t.phase = .busy ∧
      t.inPos.toNat = (((jobPartition s).take k).map Segment.len).sum ∧
      outSlice t 0 t.outLen.toNat = ((jobPartition s).take k).flatMap (segmentBytes (readIn s))) ∧
    ∃ t, runSteps ((jobPartition s).length + 1) s = .next t ∧ t.phase = .done ∧ t.err = .none ∧
      t.inPos = s.inLen ∧ t.outLen.toNat = (jobEncoding s).length ∧
      outSlice t 0 t.outLen.toNat = jobEncoding s ∧
      (∀ a, readIn t a = readIn s a) ∧ (∀ a, t.outLen.toNat ≤ a → readOut t a = readOut s a)

/-- 41_control_byte_writer.md R112: a job whose encoding does not fit stops with the longest prefix of whole segments that
does. That a BUSY engine steps when no turn is to come is the model's choice, unsafe for a claim that a job ends (log 2). -/
def Obligations.JobThatDoesNotFitStopsWithWholeSegments : Prop :=
  ∀ s : State, JobBegun s → s.outCap.toNat < (jobEncoding s).length →
    ∃ k t, k < (jobPartition s).length ∧ runSteps (k + 1) s = .next t ∧
      t.phase = .error ∧ t.err = .outputBufferExhausted ∧
      outSlice t 0 t.outLen.toNat = ((jobPartition s).take k).flatMap (segmentBytes (readIn s)) ∧
      t.outLen.toNat ≤ s.outCap.toNat ∧
      s.outCap.toNat < (((jobPartition s).take (k + 1)).flatMap (segmentBytes (readIn s))).length ∧
      t.inPos.toNat = (((jobPartition s).take k).map Segment.len).sum ∧
      refDecode (outSlice t 0 t.outLen.toNat) = .ok (inSlice s 0 t.inPos.toNat)

/-- 70_reset_and_hazards.md R161, 41_control_byte_writer.md R113: a capacity of N + ceil(N/3) is always enough, and the job
ends within N + 1 engine steps. That a BUSY engine steps when no turn is to come is the model's choice, unsafe for a claim
that a job ends (log 2; 70_reset_and_hazards.md R169). -/
def Obligations.SafeCapacityAlwaysEndsInDone : Prop :=
  ∀ s : State, JobBegun s → s.inLen.toNat + (s.inLen.toNat + 2) / 3 ≤ s.outCap.toNat →
    ∃ k t, k ≤ s.inLen.toNat + 1 ∧ runSteps k s = .next t ∧ t.phase = .done

/-! ### Reset -/

/-- 70_reset_and_hazards.md R156: the reset event. The drawn bytes are the free values `Config.freeByte` (log 7); the statement
holds whatever they are. That the later turns stay and that no byte beyond OUT_SIZE is drawn are the model's choices
(logs 1, 17). -/
def Obligations.ResetClearsRegistersAndKeepsBuffers : Prop :=
  ∀ (s : State) (ts : List Turn), s.turns = .resetLine :: ts →
    ∃ t, step s = .next t ∧ t.turns = ts ∧
      t.phase = .idle ∧ t.err = .none ∧ t.inLen = 0#32 ∧ t.outCap = 0#32 ∧ t.inPos = 0#32 ∧ t.outLen = 0#32 ∧
      (∀ a, readIn t a = readIn s a) ∧
      (∀ a, s.phase ≠ .busy ∨ a < s.outLen.toNat ∨ s.outCap.toNat ≤ a → readOut t a = readOut s a) ∧
      (s.phase = .busy → ∀ a, s.outLen.toNat ≤ a → a < s.outCap.toNat → a < s.params.outSize →
        readOut t a = Config.freeByte (s.draws + (a - s.outLen.toNat)))

/-- 70_reset_and_hazards.md R157: after a reset, a START with no other host write ends in DONE with OUT_LEN = 0 after one
engine step. The two actions are turns of the model's list (log 1). -/
def Obligations.StartAfterResetFinishesEmpty : Prop :=
  ∀ s : State,
    ∃ t, runSteps 2 { resetEvent s with turns := [.host ⟨.reg, 0x00#32, 32, .write, 0x00000001#32⟩, .engine] } =
        .next t ∧
      t.phase = .done ∧ t.err = .none ∧ t.outLen = 0#32

/-- 10_state.md R39, 70_reset_and_hazards.md R158, R159: the power-on state. That its power-on bytes are `Config.initIn` and
`Config.initOut` and that it carries them in `params` is the model's choice (log 4). -/
def Obligations.PowerOnStateIsIdleWithOpenContents : Prop :=
  State.reset.phase = .idle ∧ State.reset.err = .none ∧ State.reset.inLen = 0#32 ∧ State.reset.outCap = 0#32 ∧
  State.reset.inPos = 0#32 ∧ State.reset.outLen = 0#32 ∧ statusWord State.reset = 0x00000000#32 ∧
  State.reset.params.Legal ∧
  (∀ a, a < Config.inSize → readIn State.reset a = Config.initIn a) ∧
  (∀ a, a < Config.outSize → readOut State.reset a = Config.initOut a) ∧
  step State.reset = .next State.reset

/-! ### Invariants -/

/-- The invariants, and R38 over the whole of its span, hold at power-on. -/
def Obligations.InvariantHoldsAtPowerOn : Prop :=
  MachineInv State.reset ∧ DecodesSoFar State.reset ∧ EncodesSoFar State.reset ∧
    SinceStart JobInBounds State.reset ∧ SinceStart WrittenDecodes State.reset ∧
    SinceStart WrittenIsWholeSegments State.reset ∧ SinceStart WrittenBeginsEncoding State.reset

/-- 10_state.md R28, R38 (a) and (b): every step keeps the parameters legal, IN and OUT in canonical form, ERR in agreement
with STATE, and the progress registers in bounds. -/
def Obligations.EveryStepKeepsTheInvariant : Prop := ∀ s t : State, MachineInv s → step s = .next t → MachineInv t

/-- 10_state.md R38 (c), 41_control_byte_writer.md R112: every step keeps what a running job has written decoding to what it has
covered, in any interleaving with the host, and so does the step that ends the job in DONE or ERROR. -/
def Obligations.EveryStepKeepsWrittenPartDecodable : Prop :=
  ∀ s t : State, MachineInv s → DecodesSoFar s → step s = .next t →
    DecodesSoFar t ∧ (s.phase = .busy → t.phase ≠ .idle → WrittenDecodes t)

/-- 10_state.md R38 (d), 41_control_byte_writer.md R111: every step keeps what a running job has written a beginning of
Encode(x), in any interleaving with the host; a step that ends the job in DONE or ERROR keeps it too, and in DONE it is all
of Encode(x). -/
def Obligations.EveryStepKeepsWrittenPartOfEncoding : Prop :=
  ∀ s t : State, MachineInv s → EncodesSoFar s → step s = .next t →
    EncodesSoFar t ∧ (s.phase = .busy → t.phase ≠ .idle → WrittenBeginsEncoding t) ∧
      (s.phase = .busy → t.phase = .done → outSlice t 0 t.outLen.toNat = jobEncoding s ∧ t.inPos = s.inLen)

/-- 10_state.md R38 over the whole of its span, from an accepted START until the next START or reset, so in DONE and ERROR too:
every step keeps each of (a) to (d), but for a host write outside BUSY of the very register or byte the clause speaks of,
which 42_host_commands.md R126, R127, R131 and R133 carry out (log 14). -/
def Obligations.JobRulesStandUntilHostRewrites : Prop :=
  ∀ s t : State, MachineInv s → step s = .next t →
    (SinceStart InputInBounds s → (s.phase = .busy ∨ ∀ v, nextHostOp s ≠ some (.hostWrInLen v)) →
      SinceStart InputInBounds t) ∧
    (SinceStart OutputInBounds s → (s.phase = .busy ∨ ∀ v, nextHostOp s ≠ some (.hostWrOutCap v)) →
      SinceStart OutputInBounds t) ∧
    (SinceStart WrittenDecodes s →
      (s.phase = .busy ∨
        (∀ a v, nextHostOp s = some (.hostWrIn a v) → s.inPos.toNat ≤ a.toNat) ∧
        (∀ a v, nextHostOp s = some (.hostWrOut a v) → s.outLen.toNat ≤ a.toNat)) →
      SinceStart WrittenDecodes t) ∧
    (SinceStart WrittenIsWholeSegments s → SinceStart WrittenBeginsEncoding s →
      (s.phase = .busy ∨
        (∀ v, nextHostOp s ≠ some (.hostWrInLen v)) ∧
        (∀ a v, nextHostOp s = some (.hostWrIn a v) → s.inLen.toNat ≤ a.toNat) ∧
        (∀ a v, nextHostOp s = some (.hostWrOut a v) → s.outLen.toNat ≤ a.toNat)) →
      SinceStart WrittenIsWholeSegments t ∧ SinceStart WrittenBeginsEncoding t)

/-- 10_state.md R38: no state that meets the invariant faults. The faults are the model's (log 12). -/
def Obligations.NoFaultUnderTheInvariant : Prop := ∀ (s : State) (r : Fault), MachineInv s → step s ≠ .fault r

/-! ### Several engines -/

/-- 60_exceptions.md R152: an action of one engine of a platform leaves that engine as its own step leaves it, and changes no
other engine. The platform, a list of States of which one steps at a time, is the model's (log 15). -/
def Obligations.EnginesShareNothing : Prop :=
  (∀ (p q : List State) (k j : Nat), platformStep p k = .next q → j ≠ k → q[j]? = p[j]?) ∧
  (∀ (p p' q q' : List State) (k : Nat), p[k]? = p'[k]? → platformStep p k = .next q → platformStep p' k = .next q' →
    q[k]? = q'[k]?) ∧
  (∀ (p : List State) (k : Nat) (s t : State), p[k]? = some s → step s = .next t →
    ∃ q, platformStep p k = .next q ∧ q[k]? = some t ∧ q.length = p.length)
end

