-- ==== Sys2Proof/Laws/Decode.lean ====
section
/-! SUPPORT. What the decoder answers, form by form. -/

namespace Sys2Proof

/-- A 32-bit aligned read of a register of the window. -/
theorem decodeAccess_regRead {addr data : Word} {r : RegName} (hm : addr.toNat % 4 = 0)
    (hr : regAt (addr.toNat / 4) = some r) :
    decodeAccess ⟨.reg, addr, 32, .read, data⟩ = .ok (decodeRegRead r) := by
  simp [decodeAccess, hm, hr]

/-- A 32-bit aligned write of a register of the window. -/
theorem decodeAccess_regWrite {addr data : Word} {r : RegName} (hm : addr.toNat % 4 = 0)
    (hr : regAt (addr.toNat / 4) = some r) :
    decodeAccess ⟨.reg, addr, 32, .write, data⟩ = .ok (decodeRegWrite data r) := by
  simp [decodeAccess, hm, hr]

/-- The window has eight words. -/
theorem regAt_isSome (k : Nat) : (regAt k).isSome = decide (k < 8) := by
  match k with
  | 0 | 1 | 2 | 3 | 4 | 5 | 6 | 7 => rfl
  | k + 8 =>
    have : ¬ k + 8 < 8 := by omega
    simp [regAt]

/-- Bit 7 of a control byte is clear exactly when the byte is at most 0x7F. -/
theorem topBit_clear_iff (n : Byte) : n.getLsbD 7 = false ↔ n.toNat ≤ 0x7F := by
  have h := n.isLt
  rw [BitVec.getLsbD, Nat.testBit_eq_decide_div_mod_eq]
  simp
  omega

theorem litLength_eq {n : Byte} (h : n.toNat ≤ 0x7F) : litLength n = n.toNat + 1 := by
  have : n.toNat % 128 = n.toNat := Nat.mod_eq_of_lt (by omega)
  simp [litLength, this]

theorem litControl_toNat {len : Nat} (h : len ≤ 128) : (litControl len).toNat = len - 1 := by
  simp [litControl, u8]; omega

theorem runControl_toNat {len : Nat} (h : 2 ≤ len) : (runControl len).toNat = 257 - len := by
  simp [runControl, u8]; omega

end Sys2Proof
end

