-- ==== Sys2Proof/Laws/Job.lean ====
section
/-! SUPPORT. The small facts about the span of 10_state.md R38: which states lie in it, and what the host's next operation is. -/

namespace Sys2Proof.Machine

/-! ### The host's next operation -/

theorem nextHostOp_nil {s : State} (h : s.turns = []) : nextHostOp s = none := by simp [nextHostOp, h]

theorem nextHostOp_host {s : State} {a : HostAccess} {ts : List Turn} (h : s.turns = .host a :: ts) :
    nextHostOp s = (decodeAccess a).toOption := by simp [nextHostOp, h]

/-- The host's next operation is the instruction the next step runs. -/
theorem nextHostOp_eq_some {s : State} {i : Instr} :
    nextHostOp s = some i ↔ ∃ a ts, s.turns = .host a :: ts ∧ decodeAccess a = .ok i := by
  unfold nextHostOp
  constructor
  · intro h
    split at h
    · rename_i a ts ht
      refine ⟨a, ts, ht, ?_⟩
      cases hd : decodeAccess a with
      | ok j    => rw [hd] at h; exact congrArg _ (Option.some.inj h)
      | error e => rw [hd] at h; cases h
    · cases h
  · rintro ⟨a, ts, ht, hd⟩
    rw [ht]; exact congrArg Except.toOption hd

/-! ### The span of R38 -/

theorem jobAccepted_of_busy {s : State} (h : s.phase = .busy) (he : ErrMatchesState s) : JobAccepted s :=
  ⟨by simp [h], by simp [he.mpr (by simp [h])]⟩

theorem sinceStart_of_idle {P : State → Prop} {s : State} (h : s.phase = .idle) : SinceStart P s :=
  fun hj => absurd h hj.1

theorem sinceStart_of_configInvalid {P : State → Prop} {s : State} (h : s.err = .configInvalid) : SinceStart P s :=
  fun hj => absurd h hj.2

/-! ### A state in which the engine has written nothing -/

theorem writtenDecodes_of_zero {s : State} (hi : s.inPos = 0#32) (ho : s.outLen = 0#32) : WrittenDecodes s := by
  unfold WrittenDecodes; rw [hi, ho]; rfl

theorem writtenIsWholeSegments_of_zero {s : State} (hi : s.inPos = 0#32) (ho : s.outLen = 0#32) :
    WrittenIsWholeSegments s := ⟨0, Nat.zero_le _, by rw [ho]; rfl, by rw [hi]; rfl⟩

end Sys2Proof.Machine
end

