-- ==== Sys2Proof/Laws/Memory.lean ====
section
/-! SUPPORT. Reads after writes, and that every memory operation keeps the canonical form. -/

namespace Sys2Proof.Machine

variable {d : Nat → Byte} {size : Nat} {m : List Host.Cell} {a b : Nat} {v : Byte}

/-! ### Reads after writes -/

theorem Memory.read_erase_same (d : Nat → Byte) (m : List Host.Cell) (a : Nat) :
    Memory.read d (Memory.erase m a) a = d a := by
  induction m with
  | nil => rfl
  | cons c m ih =>
    by_cases h : c.1 = a
    · simpa [Memory.erase, h] using ih
    · have : Memory.erase (c :: m) a = c :: Memory.erase m a := by simp [Memory.erase, h]
      rw [this]; simp [Memory.read, h, ih]

theorem Memory.read_erase_other (d : Nat → Byte) (m : List Host.Cell) (h : b ≠ a) :
    Memory.read d (Memory.erase m a) b = Memory.read d m b := by
  induction m with
  | nil => rfl
  | cons c m ih =>
    by_cases hc : c.1 = a
    · have : Memory.erase (c :: m) a = Memory.erase m a := by simp [Memory.erase, hc]
      rw [this, ih]; simp [Memory.read, hc, Ne.symm h]
    · have : Memory.erase (c :: m) a = c :: Memory.erase m a := by simp [Memory.erase, hc]
      rw [this]; simp [Memory.read, ih]

theorem Memory.read_insert_same (d : Nat → Byte) (m : List Host.Cell) (a : Nat) (v : Byte) :
    Memory.read d (Memory.insert m a v) a = v := by
  induction m with
  | nil => simp [Memory.insert, Memory.read]
  | cons c m ih =>
    unfold Memory.insert
    split
    · simp [Memory.read]
    · split
      · simp [Memory.read]
      · simp [Memory.read, *]

theorem Memory.read_insert_other (d : Nat → Byte) (m : List Host.Cell) (v : Byte) (h : b ≠ a) :
    Memory.read d (Memory.insert m a v) b = Memory.read d m b := by
  have h' : ¬ a = b := fun e => h e.symm
  induction m with
  | nil => simp [Memory.insert, Memory.read, h']
  | cons c m ih =>
    unfold Memory.insert
    split
    · simp [Memory.read, h']
    · split
      · rename_i hc; simp [Memory.read, h', hc]
      · simp [Memory.read, ih]

/-- A read after a write to the same address gives the value written. -/
@[simp] theorem Memory.read_write_same (d : Nat → Byte) (m : List Host.Cell) (a : Nat) (v : Byte) :
    Memory.read d (Memory.write d m a v) a = v := by
  unfold Memory.write
  split
  · rename_i h; rw [Memory.read_erase_same, h]
  · exact Memory.read_insert_same d m a v

/-- A write leaves every other address alone. -/
theorem Memory.read_write_other (d : Nat → Byte) (m : List Host.Cell) (v : Byte) (h : b ≠ a) :
    Memory.read d (Memory.write d m a v) b = Memory.read d m b := by
  unfold Memory.write
  split
  · exact Memory.read_erase_other d m h
  · exact Memory.read_insert_other d m v h

/-- What an address reads as after a store of several bytes: the byte stored there, or what it read as before. -/
theorem Memory.read_writeList (d : Nat → Byte) (m : List Host.Cell) (a b : Nat) (vs : List Byte) :
    Memory.read d (Memory.writeList d m a vs) b =
      if a ≤ b ∧ b < a + vs.length then vs.getD (b - a) 0#8 else Memory.read d m b := by
  induction vs generalizing m a with
  | nil => simp [Memory.writeList]
  | cons v vs ih =>
    rw [Memory.writeList, ih]
    by_cases hb : b = a
    · subst hb
      simp
    · rw [Memory.read_write_other d m v hb]
      by_cases hin : a + 1 ≤ b ∧ b < a + 1 + vs.length
      · have h2 : a ≤ b ∧ b < a + (v :: vs).length := by simp; omega
        have h3 : b - a = (b - (a + 1)) + 1 := by omega
        rw [if_pos hin, if_pos h2, h3, List.getD_cons_succ]
      · have h2 : ¬ (a ≤ b ∧ b < a + (v :: vs).length) := by simp; omega
        rw [if_neg hin, if_neg h2]

/-! ### The canonical form -/

theorem Memory.wf_cons {c : Host.Cell} :
    Memory.wf d size (c :: m) = true ↔
      c.1 < size ∧ c.2 ≠ d c.1 ∧ (∀ e ∈ m, c.1 < e.1) ∧ Memory.wf d size m = true := by
  simp [Memory.wf, and_assoc]

@[simp] theorem Memory.wf_nil (d : Nat → Byte) (size : Nat) : Memory.wf d size [] = true := rfl

theorem Memory.wf_erase (h : Memory.wf d size m = true) : Memory.wf d size (Memory.erase m a) = true := by
  induction m with
  | nil => rfl
  | cons c m ih =>
    obtain ⟨h1, h2, h3, h4⟩ := Memory.wf_cons.mp h
    by_cases hc : c.1 = a
    · have : Memory.erase (c :: m) a = Memory.erase m a := by simp [Memory.erase, hc]
      rw [this]; exact ih h4
    · have : Memory.erase (c :: m) a = c :: Memory.erase m a := by simp [Memory.erase, hc]
      rw [this]
      exact Memory.wf_cons.mpr ⟨h1, h2, fun e he => h3 e (List.mem_filter.mp he).1, ih h4⟩

theorem Memory.mem_insert {e : Host.Cell} (h : e ∈ Memory.insert m a v) : e = (a, v) ∨ e ∈ m := by
  induction m with
  | nil => simpa [Memory.insert] using h
  | cons c m ih =>
    unfold Memory.insert at h
    split at h
    · simpa using h
    · split at h
      · rcases List.mem_cons.mp h with h | h
        · exact .inl h
        · exact .inr (List.mem_cons_of_mem _ h)
      · rcases List.mem_cons.mp h with h | h
        · exact .inr (h ▸ List.mem_cons_self)
        · exact (ih h).imp id (List.mem_cons_of_mem _)

theorem Memory.wf_insert (h : Memory.wf d size m = true) (ha : a < size) (hv : v ≠ d a) :
    Memory.wf d size (Memory.insert m a v) = true := by
  induction m with
  | nil => simp [Memory.insert, Memory.wf, ha, hv]
  | cons c m ih =>
    obtain ⟨h1, h2, h3, h4⟩ := Memory.wf_cons.mp h
    unfold Memory.insert
    split
    · rename_i hlt
      refine Memory.wf_cons.mpr ⟨ha, hv, fun e he => ?_, h⟩
      rcases List.mem_cons.mp he with rfl | he
      · exact hlt
      · exact hlt.trans (h3 e he)
    · split
      · rename_i heq
        exact Memory.wf_cons.mpr ⟨ha, hv, fun e he => heq ▸ h3 e he, h4⟩
      · rename_i hnlt hne
        refine Memory.wf_cons.mpr ⟨h1, h2, fun e he => ?_, ih h4⟩
        rcases Memory.mem_insert he with rfl | he
        · show c.1 < a; omega
        · exact h3 e he

/-- A write to an address that exists keeps the canonical form. -/
theorem Memory.wf_write (h : Memory.wf d size m = true) (ha : a < size) :
    Memory.wf d size (Memory.write d m a v) = true := by
  unfold Memory.write
  split
  · exact Memory.wf_erase h
  · rename_i hv; exact Memory.wf_insert h ha hv

/-- A store of several bytes to addresses that exist keeps the canonical form. -/
theorem Memory.wf_writeList {vs : List Byte} (h : Memory.wf d size m = true) (ha : a + vs.length ≤ size) :
    Memory.wf d size (Memory.writeList d m a vs) = true := by
  induction vs generalizing m a with
  | nil => exact h
  | cons v vs ih =>
    have hl : a + (vs.length + 1) ≤ size := ha
    exact ih (Memory.wf_write h (by omega)) (by omega)

/-- The memories of the power-on state are in their canonical form. -/
theorem State.reset_memory_wf :
    Memory.wf (powerOn State.reset.params.initIn) State.reset.params.inSize State.reset.inBuf = true ∧
      Memory.wf (powerOn State.reset.params.initOut) State.reset.params.outSize State.reset.outBuf = true :=
  ⟨rfl, rfl⟩

end Sys2Proof.Machine
end

