-- ==== Sys2Proof/Laws/State.lean ====
section
/-! SUPPORT. What each update of the state does to each field, so that no proof unfolds an update. -/

namespace Sys2Proof.Machine

/-! ### writeIn -/

@[simp] theorem writeIn_phase (s : State) (a : Nat) (v : Byte) : (writeIn s a v).phase = s.phase := rfl
@[simp] theorem writeIn_err (s : State) (a : Nat) (v : Byte) : (writeIn s a v).err = s.err := rfl
@[simp] theorem writeIn_inLen (s : State) (a : Nat) (v : Byte) : (writeIn s a v).inLen = s.inLen := rfl
@[simp] theorem writeIn_outCap (s : State) (a : Nat) (v : Byte) : (writeIn s a v).outCap = s.outCap := rfl
@[simp] theorem writeIn_inPos (s : State) (a : Nat) (v : Byte) : (writeIn s a v).inPos = s.inPos := rfl
@[simp] theorem writeIn_outLen (s : State) (a : Nat) (v : Byte) : (writeIn s a v).outLen = s.outLen := rfl
@[simp] theorem writeIn_inBuf (s : State) (a : Nat) (v : Byte) :
    (writeIn s a v).inBuf = Memory.write (powerOn s.params.initIn) s.inBuf a v := rfl
@[simp] theorem writeIn_outBuf (s : State) (a : Nat) (v : Byte) : (writeIn s a v).outBuf = s.outBuf := rfl
@[simp] theorem writeIn_params (s : State) (a : Nat) (v : Byte) : (writeIn s a v).params = s.params := rfl
@[simp] theorem writeIn_turns (s : State) (a : Nat) (v : Byte) : (writeIn s a v).turns = s.turns := rfl
@[simp] theorem writeIn_hostRead (s : State) (a : Nat) (v : Byte) : (writeIn s a v).hostRead = s.hostRead := rfl
@[simp] theorem writeIn_draws (s : State) (a : Nat) (v : Byte) : (writeIn s a v).draws = s.draws := rfl
@[simp] theorem writeIn_refStream (s : State) (a : Nat) (v : Byte) : (writeIn s a v).refStream = s.refStream := rfl
@[simp] theorem writeIn_refOut (s : State) (a : Nat) (v : Byte) : (writeIn s a v).refOut = s.refOut := rfl
@[simp] theorem writeIn_refError (s : State) (a : Nat) (v : Byte) : (writeIn s a v).refError = s.refError := rfl

/-! ### writeOut -/

@[simp] theorem writeOut_phase (s : State) (a : Nat) (v : Byte) : (writeOut s a v).phase = s.phase := rfl
@[simp] theorem writeOut_err (s : State) (a : Nat) (v : Byte) : (writeOut s a v).err = s.err := rfl
@[simp] theorem writeOut_inLen (s : State) (a : Nat) (v : Byte) : (writeOut s a v).inLen = s.inLen := rfl
@[simp] theorem writeOut_outCap (s : State) (a : Nat) (v : Byte) : (writeOut s a v).outCap = s.outCap := rfl
@[simp] theorem writeOut_inPos (s : State) (a : Nat) (v : Byte) : (writeOut s a v).inPos = s.inPos := rfl
@[simp] theorem writeOut_outLen (s : State) (a : Nat) (v : Byte) : (writeOut s a v).outLen = s.outLen := rfl
@[simp] theorem writeOut_inBuf (s : State) (a : Nat) (v : Byte) : (writeOut s a v).inBuf = s.inBuf := rfl
@[simp] theorem writeOut_outBuf (s : State) (a : Nat) (v : Byte) :
    (writeOut s a v).outBuf = Memory.write (powerOn s.params.initOut) s.outBuf a v := rfl
@[simp] theorem writeOut_params (s : State) (a : Nat) (v : Byte) : (writeOut s a v).params = s.params := rfl
@[simp] theorem writeOut_turns (s : State) (a : Nat) (v : Byte) : (writeOut s a v).turns = s.turns := rfl
@[simp] theorem writeOut_hostRead (s : State) (a : Nat) (v : Byte) : (writeOut s a v).hostRead = s.hostRead := rfl
@[simp] theorem writeOut_draws (s : State) (a : Nat) (v : Byte) : (writeOut s a v).draws = s.draws := rfl
@[simp] theorem writeOut_refStream (s : State) (a : Nat) (v : Byte) : (writeOut s a v).refStream = s.refStream := rfl
@[simp] theorem writeOut_refOut (s : State) (a : Nat) (v : Byte) : (writeOut s a v).refOut = s.refOut := rfl
@[simp] theorem writeOut_refError (s : State) (a : Nat) (v : Byte) : (writeOut s a v).refError = s.refError := rfl

/-! ### writeOutBytes -/

@[simp] theorem writeOutBytes_phase (s : State) (a : Nat) (bytes : List Byte) :
    (writeOutBytes s a bytes).phase = s.phase := rfl
@[simp] theorem writeOutBytes_err (s : State) (a : Nat) (bytes : List Byte) :
    (writeOutBytes s a bytes).err = s.err := rfl
@[simp] theorem writeOutBytes_inLen (s : State) (a : Nat) (bytes : List Byte) :
    (writeOutBytes s a bytes).inLen = s.inLen := rfl
@[simp] theorem writeOutBytes_outCap (s : State) (a : Nat) (bytes : List Byte) :
    (writeOutBytes s a bytes).outCap = s.outCap := rfl
@[simp] theorem writeOutBytes_inPos (s : State) (a : Nat) (bytes : List Byte) :
    (writeOutBytes s a bytes).inPos = s.inPos := rfl
@[simp] theorem writeOutBytes_outLen (s : State) (a : Nat) (bytes : List Byte) :
    (writeOutBytes s a bytes).outLen = s.outLen := rfl
@[simp] theorem writeOutBytes_inBuf (s : State) (a : Nat) (bytes : List Byte) :
    (writeOutBytes s a bytes).inBuf = s.inBuf := rfl
@[simp] theorem writeOutBytes_outBuf (s : State) (a : Nat) (bytes : List Byte) :
    (writeOutBytes s a bytes).outBuf = Memory.writeList (powerOn s.params.initOut) s.outBuf a bytes := rfl
@[simp] theorem writeOutBytes_params (s : State) (a : Nat) (bytes : List Byte) :
    (writeOutBytes s a bytes).params = s.params := rfl
@[simp] theorem writeOutBytes_turns (s : State) (a : Nat) (bytes : List Byte) :
    (writeOutBytes s a bytes).turns = s.turns := rfl
@[simp] theorem writeOutBytes_hostRead (s : State) (a : Nat) (bytes : List Byte) :
    (writeOutBytes s a bytes).hostRead = s.hostRead := rfl
@[simp] theorem writeOutBytes_draws (s : State) (a : Nat) (bytes : List Byte) :
    (writeOutBytes s a bytes).draws = s.draws := rfl
@[simp] theorem writeOutBytes_refStream (s : State) (a : Nat) (bytes : List Byte) :
    (writeOutBytes s a bytes).refStream = s.refStream := rfl
@[simp] theorem writeOutBytes_refOut (s : State) (a : Nat) (bytes : List Byte) :
    (writeOutBytes s a bytes).refOut = s.refOut := rfl
@[simp] theorem writeOutBytes_refError (s : State) (a : Nat) (bytes : List Byte) :
    (writeOutBytes s a bytes).refError = s.refError := rfl

/-! ### countDraws -/

@[simp] theorem countDraws_phase (s : State) (n : Nat) : (countDraws s n).phase = s.phase := rfl
@[simp] theorem countDraws_err (s : State) (n : Nat) : (countDraws s n).err = s.err := rfl
@[simp] theorem countDraws_inLen (s : State) (n : Nat) : (countDraws s n).inLen = s.inLen := rfl
@[simp] theorem countDraws_outCap (s : State) (n : Nat) : (countDraws s n).outCap = s.outCap := rfl
@[simp] theorem countDraws_inPos (s : State) (n : Nat) : (countDraws s n).inPos = s.inPos := rfl
@[simp] theorem countDraws_outLen (s : State) (n : Nat) : (countDraws s n).outLen = s.outLen := rfl
@[simp] theorem countDraws_inBuf (s : State) (n : Nat) : (countDraws s n).inBuf = s.inBuf := rfl
@[simp] theorem countDraws_outBuf (s : State) (n : Nat) : (countDraws s n).outBuf = s.outBuf := rfl
@[simp] theorem countDraws_params (s : State) (n : Nat) : (countDraws s n).params = s.params := rfl
@[simp] theorem countDraws_turns (s : State) (n : Nat) : (countDraws s n).turns = s.turns := rfl
@[simp] theorem countDraws_hostRead (s : State) (n : Nat) : (countDraws s n).hostRead = s.hostRead := rfl
@[simp] theorem countDraws_draws (s : State) (n : Nat) : (countDraws s n).draws = s.draws + n := rfl
@[simp] theorem countDraws_refStream (s : State) (n : Nat) : (countDraws s n).refStream = s.refStream := rfl
@[simp] theorem countDraws_refOut (s : State) (n : Nat) : (countDraws s n).refOut = s.refOut := rfl
@[simp] theorem countDraws_refError (s : State) (n : Nat) : (countDraws s n).refError = s.refError := rfl

/-! ### enterError -/

@[simp] theorem enterError_phase (s : State) (e : ErrCode) : (enterError s e).phase = .error := rfl
@[simp] theorem enterError_err (s : State) (e : ErrCode) : (enterError s e).err = e := rfl
@[simp] theorem enterError_inLen (s : State) (e : ErrCode) : (enterError s e).inLen = s.inLen := rfl
@[simp] theorem enterError_outCap (s : State) (e : ErrCode) : (enterError s e).outCap = s.outCap := rfl
@[simp] theorem enterError_inPos (s : State) (e : ErrCode) : (enterError s e).inPos = s.inPos := rfl
@[simp] theorem enterError_outLen (s : State) (e : ErrCode) : (enterError s e).outLen = s.outLen := rfl
@[simp] theorem enterError_inBuf (s : State) (e : ErrCode) : (enterError s e).inBuf = s.inBuf := rfl
@[simp] theorem enterError_outBuf (s : State) (e : ErrCode) : (enterError s e).outBuf = s.outBuf := rfl
@[simp] theorem enterError_params (s : State) (e : ErrCode) : (enterError s e).params = s.params := rfl
@[simp] theorem enterError_turns (s : State) (e : ErrCode) : (enterError s e).turns = s.turns := rfl
@[simp] theorem enterError_hostRead (s : State) (e : ErrCode) : (enterError s e).hostRead = s.hostRead := rfl
@[simp] theorem enterError_draws (s : State) (e : ErrCode) : (enterError s e).draws = s.draws := rfl
@[simp] theorem enterError_refStream (s : State) (e : ErrCode) : (enterError s e).refStream = s.refStream := rfl
@[simp] theorem enterError_refOut (s : State) (e : ErrCode) : (enterError s e).refOut = s.refOut := rfl
@[simp] theorem enterError_refError (s : State) (e : ErrCode) : (enterError s e).refError = s.refError := rfl

/-! ### clearProgress -/

@[simp] theorem clearProgress_phase (s : State) : (clearProgress s).phase = s.phase := rfl
@[simp] theorem clearProgress_err (s : State) : (clearProgress s).err = s.err := rfl
@[simp] theorem clearProgress_inLen (s : State) : (clearProgress s).inLen = s.inLen := rfl
@[simp] theorem clearProgress_outCap (s : State) : (clearProgress s).outCap = s.outCap := rfl
@[simp] theorem clearProgress_inPos (s : State) : (clearProgress s).inPos = 0#32 := rfl
@[simp] theorem clearProgress_outLen (s : State) : (clearProgress s).outLen = 0#32 := rfl
@[simp] theorem clearProgress_inBuf (s : State) : (clearProgress s).inBuf = s.inBuf := rfl
@[simp] theorem clearProgress_outBuf (s : State) : (clearProgress s).outBuf = s.outBuf := rfl
@[simp] theorem clearProgress_params (s : State) : (clearProgress s).params = s.params := rfl
@[simp] theorem clearProgress_turns (s : State) : (clearProgress s).turns = s.turns := rfl
@[simp] theorem clearProgress_hostRead (s : State) : (clearProgress s).hostRead = s.hostRead := rfl
@[simp] theorem clearProgress_draws (s : State) : (clearProgress s).draws = s.draws := rfl
@[simp] theorem clearProgress_refStream (s : State) : (clearProgress s).refStream = s.refStream := rfl
@[simp] theorem clearProgress_refOut (s : State) : (clearProgress s).refOut = s.refOut := rfl
@[simp] theorem clearProgress_refError (s : State) : (clearProgress s).refError = s.refError := rfl

/-! ### beginJob -/

@[simp] theorem beginJob_phase (s : State) : (beginJob s).phase = .busy := rfl
@[simp] theorem beginJob_err (s : State) : (beginJob s).err = .none := rfl
@[simp] theorem beginJob_inLen (s : State) : (beginJob s).inLen = s.inLen := rfl
@[simp] theorem beginJob_outCap (s : State) : (beginJob s).outCap = s.outCap := rfl
@[simp] theorem beginJob_inPos (s : State) : (beginJob s).inPos = 0#32 := rfl
@[simp] theorem beginJob_outLen (s : State) : (beginJob s).outLen = 0#32 := rfl
@[simp] theorem beginJob_inBuf (s : State) : (beginJob s).inBuf = s.inBuf := rfl
@[simp] theorem beginJob_outBuf (s : State) : (beginJob s).outBuf = s.outBuf := rfl
@[simp] theorem beginJob_params (s : State) : (beginJob s).params = s.params := rfl
@[simp] theorem beginJob_turns (s : State) : (beginJob s).turns = s.turns := rfl
@[simp] theorem beginJob_hostRead (s : State) : (beginJob s).hostRead = s.hostRead := rfl
@[simp] theorem beginJob_draws (s : State) : (beginJob s).draws = s.draws := rfl
@[simp] theorem beginJob_refStream (s : State) : (beginJob s).refStream = s.refStream := rfl
@[simp] theorem beginJob_refOut (s : State) : (beginJob s).refOut = s.refOut := rfl
@[simp] theorem beginJob_refError (s : State) : (beginJob s).refError = s.refError := rfl

/-! ### returnWord -/

@[simp] theorem returnWord_phase (s : State) (w : Word) : (returnWord s w).phase = s.phase := rfl
@[simp] theorem returnWord_err (s : State) (w : Word) : (returnWord s w).err = s.err := rfl
@[simp] theorem returnWord_inLen (s : State) (w : Word) : (returnWord s w).inLen = s.inLen := rfl
@[simp] theorem returnWord_outCap (s : State) (w : Word) : (returnWord s w).outCap = s.outCap := rfl
@[simp] theorem returnWord_inPos (s : State) (w : Word) : (returnWord s w).inPos = s.inPos := rfl
@[simp] theorem returnWord_outLen (s : State) (w : Word) : (returnWord s w).outLen = s.outLen := rfl
@[simp] theorem returnWord_inBuf (s : State) (w : Word) : (returnWord s w).inBuf = s.inBuf := rfl
@[simp] theorem returnWord_outBuf (s : State) (w : Word) : (returnWord s w).outBuf = s.outBuf := rfl
@[simp] theorem returnWord_params (s : State) (w : Word) : (returnWord s w).params = s.params := rfl
@[simp] theorem returnWord_turns (s : State) (w : Word) : (returnWord s w).turns = s.turns := rfl
@[simp] theorem returnWord_hostRead (s : State) (w : Word) : (returnWord s w).hostRead = .word w := rfl
@[simp] theorem returnWord_draws (s : State) (w : Word) : (returnWord s w).draws = s.draws := rfl
@[simp] theorem returnWord_refStream (s : State) (w : Word) : (returnWord s w).refStream = s.refStream := rfl
@[simp] theorem returnWord_refOut (s : State) (w : Word) : (returnWord s w).refOut = s.refOut := rfl
@[simp] theorem returnWord_refError (s : State) (w : Word) : (returnWord s w).refError = s.refError := rfl

/-! ### returnByte -/

@[simp] theorem returnByte_phase (s : State) (b : Byte) : (returnByte s b).phase = s.phase := rfl
@[simp] theorem returnByte_err (s : State) (b : Byte) : (returnByte s b).err = s.err := rfl
@[simp] theorem returnByte_inLen (s : State) (b : Byte) : (returnByte s b).inLen = s.inLen := rfl
@[simp] theorem returnByte_outCap (s : State) (b : Byte) : (returnByte s b).outCap = s.outCap := rfl
@[simp] theorem returnByte_inPos (s : State) (b : Byte) : (returnByte s b).inPos = s.inPos := rfl
@[simp] theorem returnByte_outLen (s : State) (b : Byte) : (returnByte s b).outLen = s.outLen := rfl
@[simp] theorem returnByte_inBuf (s : State) (b : Byte) : (returnByte s b).inBuf = s.inBuf := rfl
@[simp] theorem returnByte_outBuf (s : State) (b : Byte) : (returnByte s b).outBuf = s.outBuf := rfl
@[simp] theorem returnByte_params (s : State) (b : Byte) : (returnByte s b).params = s.params := rfl
@[simp] theorem returnByte_turns (s : State) (b : Byte) : (returnByte s b).turns = s.turns := rfl
@[simp] theorem returnByte_hostRead (s : State) (b : Byte) : (returnByte s b).hostRead = .byte b := rfl
@[simp] theorem returnByte_draws (s : State) (b : Byte) : (returnByte s b).draws = s.draws := rfl
@[simp] theorem returnByte_refStream (s : State) (b : Byte) : (returnByte s b).refStream = s.refStream := rfl
@[simp] theorem returnByte_refOut (s : State) (b : Byte) : (returnByte s b).refOut = s.refOut := rfl
@[simp] theorem returnByte_refError (s : State) (b : Byte) : (returnByte s b).refError = s.refError := rfl

/-! ### resetRegisters -/

@[simp] theorem resetRegisters_phase (s : State) : (resetRegisters s).phase = .idle := rfl
@[simp] theorem resetRegisters_err (s : State) : (resetRegisters s).err = .none := rfl
@[simp] theorem resetRegisters_inLen (s : State) : (resetRegisters s).inLen = 0#32 := rfl
@[simp] theorem resetRegisters_outCap (s : State) : (resetRegisters s).outCap = 0#32 := rfl
@[simp] theorem resetRegisters_inPos (s : State) : (resetRegisters s).inPos = 0#32 := rfl
@[simp] theorem resetRegisters_outLen (s : State) : (resetRegisters s).outLen = 0#32 := rfl
@[simp] theorem resetRegisters_inBuf (s : State) : (resetRegisters s).inBuf = s.inBuf := rfl
@[simp] theorem resetRegisters_outBuf (s : State) : (resetRegisters s).outBuf = s.outBuf := rfl
@[simp] theorem resetRegisters_params (s : State) : (resetRegisters s).params = s.params := rfl
@[simp] theorem resetRegisters_turns (s : State) : (resetRegisters s).turns = s.turns := rfl
@[simp] theorem resetRegisters_hostRead (s : State) : (resetRegisters s).hostRead = s.hostRead := rfl
@[simp] theorem resetRegisters_draws (s : State) : (resetRegisters s).draws = s.draws := rfl
@[simp] theorem resetRegisters_refStream (s : State) : (resetRegisters s).refStream = s.refStream := rfl
@[simp] theorem resetRegisters_refOut (s : State) : (resetRegisters s).refOut = s.refOut := rfl
@[simp] theorem resetRegisters_refError (s : State) : (resetRegisters s).refError = s.refError := rfl

/-! ### refAppend -/

@[simp] theorem refAppend_phase (s : State) (bytes : List Byte) : (refAppend s bytes).phase = s.phase := rfl
@[simp] theorem refAppend_err (s : State) (bytes : List Byte) : (refAppend s bytes).err = s.err := rfl
@[simp] theorem refAppend_inLen (s : State) (bytes : List Byte) : (refAppend s bytes).inLen = s.inLen := rfl
@[simp] theorem refAppend_outCap (s : State) (bytes : List Byte) : (refAppend s bytes).outCap = s.outCap := rfl
@[simp] theorem refAppend_inPos (s : State) (bytes : List Byte) : (refAppend s bytes).inPos = s.inPos := rfl
@[simp] theorem refAppend_outLen (s : State) (bytes : List Byte) : (refAppend s bytes).outLen = s.outLen := rfl
@[simp] theorem refAppend_inBuf (s : State) (bytes : List Byte) : (refAppend s bytes).inBuf = s.inBuf := rfl
@[simp] theorem refAppend_outBuf (s : State) (bytes : List Byte) : (refAppend s bytes).outBuf = s.outBuf := rfl
@[simp] theorem refAppend_params (s : State) (bytes : List Byte) : (refAppend s bytes).params = s.params := rfl
@[simp] theorem refAppend_turns (s : State) (bytes : List Byte) : (refAppend s bytes).turns = s.turns := rfl
@[simp] theorem refAppend_hostRead (s : State) (bytes : List Byte) : (refAppend s bytes).hostRead = s.hostRead := rfl
@[simp] theorem refAppend_draws (s : State) (bytes : List Byte) : (refAppend s bytes).draws = s.draws := rfl
@[simp] theorem refAppend_refStream (s : State) (bytes : List Byte) : (refAppend s bytes).refStream = s.refStream := rfl
@[simp] theorem refAppend_refOut (s : State) (bytes : List Byte) : (refAppend s bytes).refOut = s.refOut ++ bytes := rfl
@[simp] theorem refAppend_refError (s : State) (bytes : List Byte) : (refAppend s bytes).refError = s.refError := rfl

/-! ### resetEvent -/

@[simp] theorem resetEvent_phase (s : State) : (resetEvent s).phase = .idle := rfl
@[simp] theorem resetEvent_err (s : State) : (resetEvent s).err = .none := rfl
@[simp] theorem resetEvent_inLen (s : State) : (resetEvent s).inLen = 0#32 := rfl
@[simp] theorem resetEvent_outCap (s : State) : (resetEvent s).outCap = 0#32 := rfl
@[simp] theorem resetEvent_inPos (s : State) : (resetEvent s).inPos = 0#32 := rfl
@[simp] theorem resetEvent_outLen (s : State) : (resetEvent s).outLen = 0#32 := rfl
@[simp] theorem resetEvent_inBuf (s : State) : (resetEvent s).inBuf = s.inBuf := rfl
@[simp] theorem resetEvent_outBuf (s : State) :
    (resetEvent s).outBuf = Memory.writeList (powerOn s.params.initOut) s.outBuf s.outLen.toNat (drawn s (cutOffCount s)) := rfl
@[simp] theorem resetEvent_params (s : State) : (resetEvent s).params = s.params := rfl
@[simp] theorem resetEvent_turns (s : State) : (resetEvent s).turns = s.turns := rfl
@[simp] theorem resetEvent_hostRead (s : State) : (resetEvent s).hostRead = s.hostRead := rfl
@[simp] theorem resetEvent_draws (s : State) : (resetEvent s).draws = s.draws + cutOffCount s := rfl
@[simp] theorem resetEvent_refStream (s : State) : (resetEvent s).refStream = s.refStream := rfl
@[simp] theorem resetEvent_refOut (s : State) : (resetEvent s).refOut = s.refOut := rfl
@[simp] theorem resetEvent_refError (s : State) : (resetEvent s).refError = s.refError := rfl

/-! ### placeSegment -/

@[simp] theorem placeSegment_phase (s : State) (bytes : List Byte) : (placeSegment s bytes).phase = s.phase := rfl
@[simp] theorem placeSegment_err (s : State) (bytes : List Byte) : (placeSegment s bytes).err = s.err := rfl
@[simp] theorem placeSegment_inLen (s : State) (bytes : List Byte) : (placeSegment s bytes).inLen = s.inLen := rfl
@[simp] theorem placeSegment_outCap (s : State) (bytes : List Byte) : (placeSegment s bytes).outCap = s.outCap := rfl
@[simp] theorem placeSegment_inPos (s : State) (bytes : List Byte) : (placeSegment s bytes).inPos = s.inPos := rfl
@[simp] theorem placeSegment_outLen (s : State) (bytes : List Byte) : (placeSegment s bytes).outLen = s.outLen := rfl
@[simp] theorem placeSegment_inBuf (s : State) (bytes : List Byte) : (placeSegment s bytes).inBuf = s.inBuf := rfl
@[simp] theorem placeSegment_outBuf (s : State) (bytes : List Byte) : (placeSegment s bytes).outBuf = s.outBuf := rfl
@[simp] theorem placeSegment_params (s : State) (bytes : List Byte) : (placeSegment s bytes).params = s.params := rfl
@[simp] theorem placeSegment_turns (s : State) (bytes : List Byte) :
    (placeSegment s bytes).turns = .reference :: s.turns := rfl
@[simp] theorem placeSegment_hostRead (s : State) (bytes : List Byte) :
    (placeSegment s bytes).hostRead = s.hostRead := rfl
@[simp] theorem placeSegment_draws (s : State) (bytes : List Byte) : (placeSegment s bytes).draws = s.draws := rfl
@[simp] theorem placeSegment_refStream (s : State) (bytes : List Byte) :
    (placeSegment s bytes).refStream = bytes ++ s.refStream := rfl
@[simp] theorem placeSegment_refOut (s : State) (bytes : List Byte) : (placeSegment s bytes).refOut = s.refOut := rfl
@[simp] theorem placeSegment_refError (s : State) (bytes : List Byte) : (placeSegment s bytes).refError = none := rfl

/-! ### placeAccess -/

@[simp] theorem placeAccess_phase (s : State) (x : HostAccess) : (placeAccess s x).phase = s.phase := rfl
@[simp] theorem placeAccess_err (s : State) (x : HostAccess) : (placeAccess s x).err = s.err := rfl
@[simp] theorem placeAccess_inLen (s : State) (x : HostAccess) : (placeAccess s x).inLen = s.inLen := rfl
@[simp] theorem placeAccess_outCap (s : State) (x : HostAccess) : (placeAccess s x).outCap = s.outCap := rfl
@[simp] theorem placeAccess_inPos (s : State) (x : HostAccess) : (placeAccess s x).inPos = s.inPos := rfl
@[simp] theorem placeAccess_outLen (s : State) (x : HostAccess) : (placeAccess s x).outLen = s.outLen := rfl
@[simp] theorem placeAccess_inBuf (s : State) (x : HostAccess) : (placeAccess s x).inBuf = s.inBuf := rfl
@[simp] theorem placeAccess_outBuf (s : State) (x : HostAccess) : (placeAccess s x).outBuf = s.outBuf := rfl
@[simp] theorem placeAccess_params (s : State) (x : HostAccess) : (placeAccess s x).params = s.params := rfl
@[simp] theorem placeAccess_turns (s : State) (x : HostAccess) : (placeAccess s x).turns = .host x :: s.turns := rfl
@[simp] theorem placeAccess_hostRead (s : State) (x : HostAccess) : (placeAccess s x).hostRead = s.hostRead := rfl
@[simp] theorem placeAccess_draws (s : State) (x : HostAccess) : (placeAccess s x).draws = s.draws := rfl
@[simp] theorem placeAccess_refStream (s : State) (x : HostAccess) : (placeAccess s x).refStream = s.refStream := rfl
@[simp] theorem placeAccess_refOut (s : State) (x : HostAccess) : (placeAccess s x).refOut = s.refOut := rfl
@[simp] theorem placeAccess_refError (s : State) (x : HostAccess) : (placeAccess s x).refError = s.refError := rfl

/-! ### unlessBusy -/

theorem unlessBusy_of_busy {s : State} (h : s.phase = .busy) (t : State) : unlessBusy s t = s := if_pos h

theorem unlessBusy_of_not_busy {s : State} (h : s.phase ≠ .busy) (t : State) : unlessBusy s t = t := if_neg h

/-- A dropped write leaves the state, and any other makes `t`. -/
theorem unlessBusy_cases (s t : State) :
    (s.phase = .busy ∧ unlessBusy s t = s) ∨ (s.phase ≠ .busy ∧ unlessBusy s t = t) := by
  by_cases h : s.phase = .busy
  · exact .inl ⟨h, unlessBusy_of_busy h t⟩
  · exact .inr ⟨h, unlessBusy_of_not_busy h t⟩

end Sys2Proof.Machine
end

