-- ==== Sys2Proof/Laws/Ops.lean ====
section
/-! SUPPORT. For each shared operation, everything it can do; the provers cite these instead of unfolding it. -/

namespace Sys2Proof.Machine

/-! ### Reads of IN and OUT after writes -/

@[simp] theorem readIn_writeIn_same (s : State) (a : Nat) (v : Byte) : readIn (writeIn s a v) a = v :=
  Memory.read_write_same _ _ _ _

theorem readIn_writeIn_other (s : State) (v : Byte) {a b : Nat} (h : b ≠ a) :
    readIn (writeIn s a v) b = readIn s b := Memory.read_write_other _ _ _ h

@[simp] theorem readOut_writeIn (s : State) (a b : Nat) (v : Byte) : readOut (writeIn s a v) b = readOut s b := rfl

@[simp] theorem readOut_writeOut_same (s : State) (a : Nat) (v : Byte) : readOut (writeOut s a v) a = v :=
  Memory.read_write_same _ _ _ _

theorem readOut_writeOut_other (s : State) (v : Byte) {a b : Nat} (h : b ≠ a) :
    readOut (writeOut s a v) b = readOut s b := Memory.read_write_other _ _ _ h

@[simp] theorem readIn_writeOut (s : State) (a b : Nat) (v : Byte) : readIn (writeOut s a v) b = readIn s b := rfl

@[simp] theorem readIn_writeOutBytes (s : State) (a b : Nat) (vs : List Byte) :
    readIn (writeOutBytes s a vs) b = readIn s b := rfl

theorem readOut_writeOutBytes (s : State) (a b : Nat) (vs : List Byte) :
    readOut (writeOutBytes s a vs) b =
      if a ≤ b ∧ b < a + vs.length then vs.getD (b - a) 0#8 else readOut s b :=
  Memory.read_writeList _ _ _ _ _

/-- A read of IN depends on IN and its power-on contents alone. -/
theorem readIn_congr {s t : State} (h : t.inBuf = s.inBuf) (hp : t.params = s.params) (a : Nat) :
    readIn t a = readIn s a := by simp [readIn, h, hp]

/-- A read of OUT depends on OUT and its power-on contents alone. -/
theorem readOut_congr {s t : State} (h : t.outBuf = s.outBuf) (hp : t.params = s.params) (a : Nat) :
    readOut t a = readOut s a := by simp [readOut, h, hp]

@[simp] theorem inSlice_length (s : State) (a n : Nat) : (inSlice s a n).length = n := by simp [inSlice]

@[simp] theorem outSlice_length (s : State) (a n : Nat) : (outSlice s a n).length = n := by simp [outSlice]

@[simp] theorem drawn_length (s : State) (n : Nat) : (drawn s n).length = n := by simp [drawn]

theorem drawn_getD (s : State) {n k : Nat} (h : k < n) : (drawn s n).getD k 0#8 = Config.freeByte (s.draws + k) := by
  simp [drawn, List.getD, h]

/-! ### Buffer addresses -/

theorem atInAddress_next {s t u : State} {a : Word} :
    atInAddress s a t = .next u ↔ a.toNat < s.params.inSize ∧ t = u := by
  unfold atInAddress; split <;> simp [*]

theorem atInAddress_not_fault {s t : State} {a : Word} {r : Fault} : atInAddress s a t ≠ .fault r := by
  unfold atInAddress; split <;> simp

theorem atOutAddress_next {s t u : State} {a : Word} :
    atOutAddress s a t = .next u ↔ a.toNat < s.params.outSize ∧ t = u := by
  unfold atOutAddress; split <;> simp [*]

theorem atOutAddress_not_fault {s t : State} {a : Word} {r : Fault} : atOutAddress s a t ≠ .fault r := by
  unfold atOutAddress; split <;> simp

/-! ### START -/

/-- The three things a START can do. -/
theorem startJob_cases (s : State) :
    (s.phase = .busy ∧ startJob s = s) ∨
    (s.phase ≠ .busy ∧ lengthsFit s = true ∧ startJob s = beginJob s) ∨
    (s.phase ≠ .busy ∧ lengthsFit s = false ∧ startJob s = clearProgress (enterError s .configInvalid)) := by
  unfold startJob
  rcases unlessBusy_cases s (if lengthsFit s then beginJob s else clearProgress (enterError s .configInvalid))
    with ⟨h, e⟩ | ⟨h, e⟩
  · exact .inl ⟨h, e⟩
  · cases hf : lengthsFit s
    · exact .inr (.inr ⟨h, rfl, by simpa [hf] using e⟩)
    · exact .inr (.inl ⟨h, rfl, by simpa [hf] using e⟩)

theorem lengthsFit_iff {s : State} :
    lengthsFit s = true ↔ s.inLen.toNat ≤ s.params.inSize ∧ s.outCap.toNat ≤ s.params.outSize := by
  simp [lengthsFit]

/-! ### Engine steps -/

/-- An engine step gives a next state exactly where it is enabled, selected and its own outcome is that state. -/
theorem whenSelected_next {i : Instr} {s t : State} {o : Host.Outcome State Fault Refusal} :
    whenSelected i s o = .next t ↔ s.phase = .busy ∧ engineChoice s = some i ∧ o = .next t := by
  unfold whenSelected
  split
  · rename_i h; simp [h]
  · rename_i h
    have hb : s.phase = .busy := not_not.mp h
    split
    · rename_i hc; simp [hc]
    · rename_i j hc
      split
      · rename_i hj; simp [hb, hc, hj]
      · rename_i hj; simp [hc, hj]

/-- Where the dispatch selects the step, its outcome is its own. -/
theorem whenSelected_of_choice {i : Instr} {s : State} {o : Host.Outcome State Fault Refusal}
    (hb : s.phase = .busy) (hc : engineChoice s = some i) : whenSelected i s o = o := by
  simp [whenSelected, hb, hc]

/-- The four ways the dispatch can go. -/
theorem engineChoice_cases (s : State) :
    (s.inPos = s.inLen ∧ engineChoice s = some .finish) ∨
    (s.inPos ≠ s.inLen ∧ partitionDefined s = false ∧ engineChoice s = none) ∨
    (s.inPos ≠ s.inLen ∧ partitionDefined s = true ∧ segmentTooLong s = true ∧ engineChoice s = some .exhaust) ∨
    (s.inPos ≠ s.inLen ∧ partitionDefined s = true ∧ segmentTooLong s = false ∧
      engineChoice s = some (emitStep (jobSegment s))) := by
  unfold engineChoice
  by_cases h : s.inPos = s.inLen
  · exact .inl ⟨h, if_pos h⟩
  · cases hp : partitionDefined s
    · exact .inr (.inl ⟨h, rfl, by simp [h]⟩)
    · cases ht : segmentTooLong s
      · exact .inr (.inr (.inr ⟨h, rfl, rfl, by simp [h]⟩))
      · exact .inr (.inr (.inl ⟨h, rfl, rfl, by simp [h]⟩))

theorem partitionDefined_iff {s : State} :
    partitionDefined s = true ↔ s.inPos.toNat < s.inLen.toNat ∧ s.inLen.toNat ≤ s.params.inSize := by
  simp [partitionDefined]

theorem segmentTooLong_iff {s : State} :
    segmentTooLong s = true ↔
      s.outCap.toNat < s.outLen.toNat + outLength (jobSegment s).kind (jobSegment s).len := by
  simp [segmentTooLong]

/-- The state a commit leaves. -/
theorem commitSegment_next {s t : State} {len : Nat} {bytes : List Byte} :
    commitSegment s len bytes = .next t ↔
      s.outLen.toNat + bytes.length ≤ s.params.outSize ∧
        { writeOutBytes s s.outLen.toNat bytes with
          outLen := BitVec.ofNat 32 (s.outLen.toNat + bytes.length)
          inPos  := BitVec.ofNat 32 (s.inPos.toNat + len) } = t := by
  unfold commitSegment; split <;> simp [*]

@[simp] theorem runBytes_length (len : Nat) (b : Byte) : (runBytes len b).length = 2 := rfl

@[simp] theorem litBytes_length (bytes : List Byte) : (litBytes bytes).length = bytes.length + 1 := rfl

/-! ### Turns -/

/-- A host's turn runs what its access decodes to, or is refused. -/
theorem hostTurn_cases (a : HostAccess) (s : State) :
    (∃ i, decodeAccess a = .ok i ∧ hostTurn a s = exec i s) ∨
    (∃ r, decodeAccess a = .error r ∧ hostTurn a s = .refused (.accessRefused r)) := by
  unfold hostTurn
  cases h : decodeAccess a with
  | ok i => exact .inl ⟨i, rfl, rfl⟩
  | error r => exact .inr ⟨r, rfl, rfl⟩

/-- The engine's turn passes, runs the selected step, or faults. -/
theorem engineTurn_cases (s : State) :
    (s.phase ≠ .busy ∧ engineTurn s = .next s) ∨
    (s.phase = .busy ∧ ∃ i, engineChoice s = some i ∧ engineTurn s = exec i s) ∨
    (s.phase = .busy ∧ engineChoice s = none ∧ engineTurn s = .fault .partitionOutsideInput) := by
  unfold engineTurn
  by_cases h : s.phase = .busy
  · rw [if_pos h]
    cases hc : engineChoice s with
    | none => exact .inr (.inr ⟨h, rfl, rfl⟩)
    | some i => exact .inr (.inl ⟨h, i, rfl, rfl⟩)
  · exact .inl ⟨h, if_neg h⟩

/-- The reference reader's turn passes, runs the next segment, or records RefDecode's error. -/
theorem referenceTurn_cases (s : State) :
    referenceTurn s = .next s ∨
    (∃ i rest, decodeSegment s.refStream = .ok (i, rest) ∧
      referenceTurn s = exec i { s with refStream := rest }) ∨
    (∃ e, decodeSegment s.refStream = .error (.truncated e) ∧
      referenceTurn s = .next { s with refError := some e }) := by
  unfold referenceTurn
  split
  · exact .inl rfl
  · split
    · rename_i i rest h; exact .inr (.inl ⟨i, rest, h, rfl⟩)
    · rename_i e h; exact .inr (.inr ⟨e, h, rfl⟩)
    · exact .inl rfl
    · exact .inl rfl
    · exact .inl rfl

/-- A step takes the first turn, or the engine's where none is to come. -/
theorem step_nil {s : State} (h : s.turns = []) : step s = engineTurn s := by simp [step, nextTurn, h]

theorem step_cons {s : State} {t : Turn} {ts : List Turn} (h : s.turns = t :: ts) :
    step s = takeTurn t { s with turns := ts } := by simp [step, nextTurn, h]

end Sys2Proof.Machine
end

