-- ==== Sys2Proof/Laws/Partition.lean ====
section
/-! SUPPORT. The small facts about the partitioner's loops that its properties rest on. -/

namespace Sys2Proof.Machine

theorem runStart_iff {x : Nat → Byte} {n j : Nat} : runStart x n j = true ↔ j + 1 < n ∧ x j = x (j + 1) := by
  simp [runStart]

theorem runLengthLoop_ge (x : Nat → Byte) (n i fuel l : Nat) : l ≤ runLengthLoop x n i fuel l := by
  induction fuel generalizing l with
  | zero => exact Nat.le_refl l
  | succ fuel ih =>
    unfold runLengthLoop
    split
    · exact Nat.le_trans (Nat.le_succ l) (ih (l + 1))
    · exact Nat.le_refl l

theorem runLengthLoop_le_cap (x : Nat → Byte) (n i fuel l : Nat) (h : l ≤ Config.runCap) :
    runLengthLoop x n i fuel l ≤ Config.runCap := by
  induction fuel generalizing l with
  | zero => exact h
  | succ fuel ih =>
    unfold runLengthLoop
    split
    · rename_i hc; exact ih (l + 1) hc.2.1
    · exact h

theorem litLengthLoop_ge (x : Nat → Byte) (n i fuel l : Nat) : l ≤ litLengthLoop x n i fuel l := by
  induction fuel generalizing l with
  | zero => exact Nat.le_refl l
  | succ fuel ih =>
    unfold litLengthLoop
    split
    · exact Nat.le_trans (Nat.le_succ l) (ih (l + 1))
    · exact Nat.le_refl l

theorem litLengthLoop_le_cap (x : Nat → Byte) (n i fuel l : Nat) (h : l ≤ Config.litCap) :
    litLengthLoop x n i fuel l ≤ Config.litCap := by
  induction fuel generalizing l with
  | zero => exact h
  | succ fuel ih =>
    unfold litLengthLoop
    split
    · rename_i hc; exact ih (l + 1) hc.2.1
    · exact h

@[simp] theorem partitionAt_start (x : Nat → Byte) (n i : Nat) : (partitionAt x n i).start = i := by
  unfold partitionAt; split <;> rfl

/-- Every segment covers at least one byte. -/
theorem partitionAt_len_pos (x : Nat → Byte) (n i : Nat) : 1 ≤ (partitionAt x n i).len := by
  unfold partitionAt
  split
  · exact runLengthLoop_ge x n i _ 1
  · exact litLengthLoop_ge x n i _ 1

end Sys2Proof.Machine
end

