-- ==== Sys2Proof/Laws/PerInstr.lean ====
section
/-! SUPPORT. One statement for every instruction as syntax: the shape of its encoding. -/

namespace Sys2Proof.Laws.EncodedShape

/-- The encoding has the shape the spec gives: a segment is as long as its control byte says (30_encoding.md R70); a
register access is 32 bits wide at a multiple of 4 below 0x20, and a buffer access is one byte wide (20_memory.md R47). -/
def ShapeOk : Encoded → Prop
  | .segment bytes => bytes.length = segLen (bytes.headD 0#8)
  | .access a =>
    match a.space with
    | .reg => a.width = 32 ∧ a.addr.toNat % 4 = 0 ∧ a.addr.toNat < 0x20
    | .inBuf => a.width = 8
    | .outBuf => a.width = 8

/-- A well-formed instruction's encoding has the shape the spec gives, and only an engine step has none. -/
def Statement (i : Instr) : Prop :=
  WellFormed i = true →
    (∀ e, encode i = some e → ShapeOk e) ∧ (encode i = none ↔ isEngineStep i = true)

theorem lit (payload : List Byte) : Statement (.lit payload) := by
  intro h
  have hl : 1 ≤ payload.length ∧ payload.length ≤ 128 := of_decide_eq_true h
  refine ⟨fun e he => ?_, by simp [encode, isEngineStep]⟩
  obtain rfl := Option.some.inj he
  have hn : (litControl payload.length).toNat = payload.length - 1 := by simp [litControl, u8]; omega
  have hs : segLen (litControl payload.length) = payload.length + 1 := by
    rw [segLen, if_pos (by omega)]; omega
  exact hs.symm

theorem rsvd : Statement .rsvd := fun _ => ⟨by simp [encode, ShapeOk, segLen], by simp [encode, isEngineStep]⟩

theorem run (count : Nat) (b : Byte) : Statement (.run count b) := by
  intro h
  have hc : 2 ≤ count ∧ count ≤ 128 := of_decide_eq_true h
  refine ⟨fun e he => ?_, by simp [encode, isEngineStep]⟩
  obtain rfl := Option.some.inj he
  have hn : (runControl count).toNat = 257 - count := by simp [runControl, u8]; omega
  have h80 : runControl count ≠ 0x80#8 := fun e => by
    have := congrArg BitVec.toNat e
    simp [hn] at this; omega
  have hs : segLen (runControl count) = 2 := by
    rw [segLen, if_neg (by omega), if_neg h80]
  exact hs.symm

theorem hostStart (upper : BitVec 31) : Statement (.hostStart upper) :=
  fun _ => ⟨by simp [encode, writeReg, ShapeOk], by simp [encode, isEngineStep]⟩

theorem hostWrCtrl0 (upper : BitVec 31) : Statement (.hostWrCtrl0 upper) :=
  fun _ => ⟨by simp [encode, writeReg, ShapeOk], by simp [encode, isEngineStep]⟩

theorem hostRdCtrl : Statement .hostRdCtrl :=
  fun _ => ⟨by simp [encode, readReg, ShapeOk], by simp [encode, isEngineStep]⟩

theorem hostRdStatus : Statement .hostRdStatus :=
  fun _ => ⟨by simp [encode, readReg, ShapeOk], by simp [encode, isEngineStep]⟩

theorem hostWrInLen (v : Word) : Statement (.hostWrInLen v) :=
  fun _ => ⟨by simp [encode, writeReg, ShapeOk], by simp [encode, isEngineStep]⟩

theorem hostWrOutCap (v : Word) : Statement (.hostWrOutCap v) :=
  fun _ => ⟨by simp [encode, writeReg, ShapeOk], by simp [encode, isEngineStep]⟩

theorem hostRdReg (r : DataReg) : Statement (.hostRdReg r) := by
  cases r <;> exact fun _ => ⟨by simp [encode, readReg, dataRegOffset, ShapeOk], by simp [encode, isEngineStep]⟩

theorem hostWrRo (r : RoReg) (v : Word) : Statement (.hostWrRo r v) := by
  cases r <;> exact fun _ => ⟨by simp [encode, writeReg, roRegOffset, ShapeOk], by simp [encode, isEngineStep]⟩

theorem hostRsvd (r : RsvdReg) (acc : RsvdAccess) : Statement (.hostRsvd r acc) := by
  cases r <;> cases acc <;>
    exact fun _ => ⟨by simp [encode, readReg, writeReg, rsvdRegOffset, ShapeOk], by simp [encode, isEngineStep]⟩

theorem hostWrIn (a : Word) (v : Byte) : Statement (.hostWrIn a v) :=
  fun _ => ⟨by simp [encode, ShapeOk], by simp [encode, isEngineStep]⟩

theorem hostRdIn (a : Word) : Statement (.hostRdIn a) :=
  fun _ => ⟨by simp [encode, ShapeOk], by simp [encode, isEngineStep]⟩

theorem hostWrOut (a : Word) (v : Byte) : Statement (.hostWrOut a v) :=
  fun _ => ⟨by simp [encode, ShapeOk], by simp [encode, isEngineStep]⟩

theorem hostRdOut (a : Word) : Statement (.hostRdOut a) :=
  fun _ => ⟨by simp [encode, ShapeOk], by simp [encode, isEngineStep]⟩

theorem finish : Statement .finish := fun _ => ⟨by simp [encode], by simp [encode, isEngineStep]⟩

theorem emitRun (len : Nat) : Statement (.emitRun len) :=
  fun _ => ⟨by simp [encode], by simp [encode, isEngineStep]⟩

theorem emitLit (len : Nat) : Statement (.emitLit len) :=
  fun _ => ⟨by simp [encode], by simp [encode, isEngineStep]⟩

theorem exhaust : Statement .exhaust := fun _ => ⟨by simp [encode], by simp [encode, isEngineStep]⟩

end Sys2Proof.Laws.EncodedShape
end

