-- ==== Sys2Proof/Tests/Slice0.lean ====
section
/-! SUPPORT. Tests of the model against the spec's own vectors (95_test_vectors.md) and worked rules, and for every statement
with hypotheses a state and operands that meet them. -/

namespace Sys2Proof.Tests

open Sys2Proof.Machine

/-! ### A small engine

IN_SIZE = OUT_SIZE = 16, as in 95_test_vectors.md V4, with 0x55 and 0x66 as power-on bytes. -/

def params16 : Params := ⟨List.replicate 16 0x55#8, List.replicate 16 0x66#8⟩

/-- The engine at power-on. -/
def fresh : State := { State.reset with params := params16 }

/-- Bytes at addresses 0, 1, ... of a buffer. -/
def cells (bytes : List Byte) : List Host.Cell := (List.range bytes.length).zip bytes

/-- A job just begun on `input` with capacity `cap`, and only the engine to move. -/
def job (input : List Byte) (cap : Nat) : State :=
  { fresh with
    phase := .busy, inBuf := cells input, inLen := BitVec.ofNat 32 input.length, outCap := BitVec.ofNat 32 cap }

/-- The input of 95_test_vectors.md P3. -/
def input3 : List Byte := [0x41#8, 0x41#8, 0x41#8, 0x42#8, 0x43#8]

/-- That job after its first step (P3 step 9). -/
def midJob : State :=
  { job input3 16 with inPos := 3#32, outLen := 2#32, outBuf := cells [0xFE#8, 0x41#8] }

/-- STATUS, IN_POS, OUT_LEN and the output of a next state. -/
def view : Host.Outcome State Fault Refusal → Option (Word × Word × Word × List Byte)
  | .next t    => some (statusWord t, t.inPos, t.outLen, outSlice t 0 t.outLen.toNat)
  | .fault _   => none
  | .refused _ => none

/-- A field of a next state. -/
def field {α : Type} (f : State → α) : Host.Outcome State Fault Refusal → Option α
  | .next t    => some (f t)
  | .fault _   => none
  | .refused _ => none

/-! ### WellFormed: an ill-formed term for each check -/

theorem test_wellFormed_refuses_lit_empty : WellFormed (.lit []) = false := by decide
theorem test_wellFormed_refuses_lit_129 : WellFormed (.lit (List.replicate 129 0#8)) = false := by decide +kernel
theorem test_wellFormed_refuses_run_1 : WellFormed (.run 1 0#8) = false := by decide
theorem test_wellFormed_refuses_run_129 : WellFormed (.run 129 0#8) = false := by decide
theorem test_wellFormed_refuses_emitRun_1 : WellFormed (.emitRun 1) = false := by decide
theorem test_wellFormed_refuses_emitRun_128 : WellFormed (.emitRun 128) = false := by decide
theorem test_wellFormed_refuses_emitLit_0 : WellFormed (.emitLit 0) = false := by decide
theorem test_wellFormed_refuses_emitLit_129 : WellFormed (.emitLit 129) = false := by decide

/-! ### Decoding: words written out from 30_encoding.md and 42_host_commands.md -/

/-- S3, R65: control 00000000, one payload byte. -/
theorem test_decode_lit : decode (.segment [0b00000000#8, 0xAB#8]) = .ok (.lit [0xAB#8]) := by decide
/-- R67: 10000000 alone. -/
theorem test_decode_rsvd : decode (.segment [0b10000000#8]) = .ok .rsvd := by decide
/-- S4, R66: control 11111110, count 257 - 254 = 3. -/
theorem test_decode_run : decode (.segment [0b11111110#8, 0xF0#8]) = .ok (.run 3 0xF0#8) := by decide
/-- S8: `FE` alone. -/
theorem test_decode_truncated_run : decode (.segment [0xFE#8]) = .error (.truncated .truncatedRun) := by decide
/-- S9: `05 01 02`. -/
theorem test_decode_truncated_literal :
    decode (.segment [0x05#8, 0x01#8, 0x02#8]) = .error (.truncated .truncatedLiteral) := by decide
/-- V5.1 and R122: bit 0 set. -/
theorem test_decode_start :
    decode (.access ⟨.reg, 0x00#32, 32, .write, 0x80000001#32⟩) = .ok (.hostStart 0x40000000#31) := by decide
/-- V5.2: bit 0 clear. -/
theorem test_decode_wrCtrl0 :
    decode (.access ⟨.reg, 0x00#32, 32, .write, 0xFFFFFFFE#32⟩) = .ok (.hostWrCtrl0 0x7FFFFFFF#31) := by decide
/-- V5.3. -/
theorem test_decode_rdCtrl : decode (.access ⟨.reg, 0x00#32, 32, .read, 0#32⟩) = .ok .hostRdCtrl := by decide
/-- P1 step 7. -/
theorem test_decode_rdStatus : decode (.access ⟨.reg, 0x04#32, 32, .read, 0#32⟩) = .ok .hostRdStatus := by decide
/-- P1 step 2. -/
theorem test_decode_wrInLen :
    decode (.access ⟨.reg, 0x08#32, 32, .write, 1#32⟩) = .ok (.hostWrInLen 1#32) := by decide
/-- P1 step 3. -/
theorem test_decode_wrOutCap :
    decode (.access ⟨.reg, 0x0C#32, 32, .write, 0x10#32⟩) = .ok (.hostWrOutCap 16#32) := by decide
/-- P1 step 8. -/
theorem test_decode_rdReg : decode (.access ⟨.reg, 0x14#32, 32, .read, 0#32⟩) = .ok (.hostRdReg .outLen) := by decide
/-- V5.13. -/
theorem test_decode_wrRo : decode (.access ⟨.reg, 0x10#32, 32, .write, 5#32⟩) = .ok (.hostWrRo .inPos 5#32) := by decide
/-- V5.14. -/
theorem test_decode_rsvdOffset :
    decode (.access ⟨.reg, 0x1C#32, 32, .read, 0#32⟩) = .ok (.hostRsvd .at1C .read) := by decide
/-- P1 step 1. -/
theorem test_decode_wrIn :
    decode (.access ⟨.inBuf, 0#32, 8, .write, 0xAB#32⟩) = .ok (.hostWrIn 0#32 0xAB#8) := by decide
/-- V5.17. -/
theorem test_decode_rdIn : decode (.access ⟨.inBuf, 0#32, 8, .read, 0#32⟩) = .ok (.hostRdIn 0#32) := by decide
/-- P5 step 12. -/
theorem test_decode_wrOut :
    decode (.access ⟨.outBuf, 0#32, 8, .write, 0x99#32⟩) = .ok (.hostWrOut 0#32 0x99#8) := by decide
/-- P1 step 9. -/
theorem test_decode_rdOut : decode (.access ⟨.outBuf, 1#32, 8, .read, 0#32⟩) = .ok (.hostRdOut 1#32) := by decide
/-- V5.21: offset 0x02, offset 0x20, a 16-bit register access, a 32-bit buffer access. -/
theorem test_decode_refused :
    decodeAccess ⟨.reg, 0x02#32, 32, .read, 0#32⟩ = .error .regMisaligned ∧
    decodeAccess ⟨.reg, 0x20#32, 32, .read, 0#32⟩ = .error .regOffset ∧
    decodeAccess ⟨.reg, 0x04#32, 16, .read, 0#32⟩ = .error .regWidth ∧
    decodeAccess ⟨.inBuf, 0#32, 32, .read, 0#32⟩ = .error .bufferWidth := by decide
/-- R64: the table's wire-format words, 0x05, 0x80 and 0xFF. -/
theorem test_decodeTableWord :
    decodeTableWord 8 0x05 = some (.lit (List.replicate 6 0#8)) ∧ decodeTableWord 8 0x80 = some .rsvd ∧
    decodeTableWord 8 0xFF = some (.run 2 0#8) := by decide
/-- The model's packing of `WR8 IN[3] <- AB` (log 9). -/
theorem test_decodeTableWord_access :
    decodeTableWord 80 (3 + 0xAB * 2 ^ 32 + 1 * 2 ^ 64 + 1 * 2 ^ 66 + 8 * 2 ^ 72) = some (.hostWrIn 3#32 0xAB#8) := by
  decide

/-! ### Wire format -/

/-- V6.6: `01 41 80 FF 42`. -/
theorem test_refDecode : refDecode [0x01#8, 0x41#8, 0x80#8, 0xFF#8, 0x42#8] = .ok [0x41#8, 0x80#8, 0x42#8, 0x42#8] := by
  decide
/-- V6.8, V6.11. -/
theorem test_refDecode_rsvd_and_error :
    refDecode [0x80#8, 0x00#8, 0x41#8] = .ok [0x41#8] ∧
    refDecode [0x00#8, 0x41#8, 0xFE#8] = .error .truncatedRun := by decide
/-- S3, S4, R76 on the reference reader. -/
theorem test_exec_wire :
    field State.refOut (exec (.lit [0xAB#8]) fresh) = some [0xAB#8] ∧
    field State.refOut (exec .rsvd fresh) = some [] ∧
    field State.refOut (exec (.run 3 0xF0#8) fresh) = some [0xF0#8, 0xF0#8, 0xF0#8] := by decide
/-- The step after power-on runs the segment placed for it. -/
theorem test_step_runs_placed_segment :
    field State.refOut (step (State.reset.withFetchWord 8 0xFE)) = some (List.replicate 3 0#8) := by decide

/-! ### Host operations (V5) -/

/-- V5.1 and V5.6: IN_LEN and OUT_CAP equal to the sizes. -/
theorem test_start_begins :
    view (exec (.hostStart 0#31) { fresh with inLen := 16#32, outCap := 16#32, outLen := 9#32 }) =
      some (0x01#32, 0#32, 0#32, []) := by decide
/-- V5.4. -/
theorem test_start_config_invalid :
    view (exec (.hostStart 0#31) { fresh with inLen := 17#32, inPos := 4#32 }) = some (0x23#32, 0#32, 0#32, []) := by
  decide
/-- V5.7. -/
theorem test_start_while_busy : exec (.hostStart 0#31) midJob = .next midJob := rfl
/-- V5.2. -/
theorem test_wrCtrl0 : exec (.hostWrCtrl0 0x7FFFFFFF#31) fresh = .next fresh := rfl
/-- V5.3. -/
theorem test_rdCtrl : field State.hostRead (exec .hostRdCtrl midJob) = some (.word 0#32) := by decide
/-- R109's example: 0x00000013. -/
theorem test_rdStatus :
    field State.hostRead (exec .hostRdStatus { midJob with phase := .error, err := .outputBufferExhausted }) =
      some (.word 0x13#32) := by decide
/-- V5.9, V5.10. -/
theorem test_wrInLen :
    field State.inLen (exec (.hostWrInLen 7#32) { midJob with phase := .done }) = some 7#32 ∧
    field State.inLen (exec (.hostWrInLen 1#32) midJob) = some 5#32 := by decide
/-- V5.11, V5.12. -/
theorem test_wrOutCap :
    field State.outCap (exec (.hostWrOutCap 3#32) fresh) = some 3#32 ∧
    field State.outCap (exec (.hostWrOutCap 0#32) midJob) = some 16#32 := by decide
/-- R128's example: `RD32 0x10 -> 3`, `RD32 0x14 -> 2`. -/
theorem test_rdReg :
    field State.hostRead (exec (.hostRdReg .inPos) midJob) = some (.word 3#32) ∧
    field State.hostRead (exec (.hostRdReg .outLen) midJob) = some (.word 2#32) := by decide
/-- V5.13. -/
theorem test_wrRo : exec (.hostWrRo .status 0xFF#32) midJob = .next midJob := rfl
/-- V5.14. -/
theorem test_rsvdOffset :
    field State.hostRead (exec (.hostRsvd .at18 .read) midJob) = some (.word 0#32) ∧
    exec (.hostRsvd .at1C (.write 5#32)) midJob = .next midJob := ⟨by decide, rfl⟩
/-- V5.15; and writing the power-on byte lists nothing. -/
theorem test_wrIn :
    field (fun t => readIn t 15) (exec (.hostWrIn 15#32 0xAB#8) fresh) = some 0xAB#8 ∧
    field State.inBuf (exec (.hostWrIn 15#32 0x55#8) { fresh with inBuf := [(15, 0xAB#8)] }) = some [] := by decide
/-- V5.16, V5.21. -/
theorem test_wrIn_busy_and_beyond :
    exec (.hostWrIn 0#32 0x55#8) midJob = .next midJob ∧
    exec (.hostWrIn 16#32 0x55#8) fresh = .refused .bufferAddressBeyondSize := ⟨rfl, rfl⟩
/-- V5.17; R55 of an unwritten byte. -/
theorem test_rdIn :
    field State.hostRead (exec (.hostRdIn 4#32) midJob) = some (.byte 0x43#8) ∧
    field State.hostRead (exec (.hostRdIn 5#32) midJob) = some (.byte 0x55#8) := by decide
/-- R133: stored when not BUSY; P5 step 12: dropped while BUSY. -/
theorem test_wrOut :
    field (fun t => readOut t 2) (exec (.hostWrOut 2#32 0x5A#8) fresh) = some 0x5A#8 ∧
    exec (.hostWrOut 0#32 0x99#8) midJob = .next midJob := ⟨by decide, rfl⟩
/-- V5.19; V5.18: a draw, whatever it is. -/
theorem test_rdOut :
    field State.hostRead (exec (.hostRdOut 1#32) { midJob with phase := .done }) = some (.byte 0x41#8) ∧
    field State.hostRead (exec (.hostRdOut 1#32) midJob) = some (.byte (Config.freeByte 0)) := ⟨by decide, rfl⟩

/-! ### Engine steps (V4, P2, P3) -/

/-- V4.1: FINISH needs no capacity. -/
theorem test_finish : view (exec .finish (job [] 0)) = some (0x02#32, 0#32, 0#32, []) := by decide
/-- R105: not selected, and not enabled. -/
theorem test_finish_refused :
    exec .finish midJob = .refused .engineStepNotSelected ∧ exec .finish fresh = .refused .engineNotEnabled := ⟨rfl, rfl⟩
/-- P3 step 9. -/
theorem test_emitRun : view (exec (.emitRun 3) (job input3 16)) = some (0x01#32, 3#32, 2#32, [0xFE#8, 0x41#8]) := by decide
/-- V4.7's second step. -/
theorem test_emitLit :
    view (exec (.emitLit 2) midJob) = some (0x01#32, 5#32, 5#32, [0xFE#8, 0x41#8, 0x01#8, 0x42#8, 0x43#8]) := by decide
/-- P3 step 10: 2 + 3 > 3. -/
theorem test_exhaust :
    view (exec .exhaust { midJob with outCap := 3#32 }) = some (0x13#32, 3#32, 2#32, [0xFE#8, 0x41#8]) := by decide
/-- V4.3: one byte of capacity is never enough. -/
theorem test_exhaust_first : view (step (job [0xAB#8] 1)) = some (0x13#32, 0#32, 0#32, []) := by decide
/-- V1.5, V1.7: the cap with the end of the input, and a span that stops at a run. -/
theorem test_partition :
    partitionAt (fun _ => 0x07#8) 127 0 = ⟨.run, 0, 127⟩ ∧
    partitionAt (fun j => [0x01#8, 0x02#8, 0x03#8, 0x03#8].getD j 0#8) 4 0 = ⟨.lit, 0, 2⟩ := by decide +kernel
/-- V3.18, and the run of 128 of R101. -/
theorem test_encodeInput :
    encodeInput (fun j => [0x80#8, 0x81#8, 0x80#8].getD j 0#8) 3 = [0x02#8, 0x80#8, 0x81#8, 0x80#8] ∧
    encodeInput (fun _ => 0x07#8) 128 = [0x82#8, 0x07#8, 0x00#8, 0x07#8] := by decide +kernel

/-! ### Reset and turns (V7) -/

/-- V7.2: the committed bytes stay, and the rest of OUT[0..OUT_CAP) is drawn: here the length of what OUT keeps below 2. -/
theorem test_reset_keeps_committed :
    field State.inBuf (step { midJob with turns := [.resetLine] }) = some midJob.inBuf ∧
    cutOffCount midJob = 14 ∧ cutOffCount { midJob with phase := .done } = 0 := by decide
/-- V7.1: outside BUSY, OUT is unchanged. -/
theorem test_reset_when_done :
    view (step { midJob with phase := .done, turns := [.resetLine] }) = some (0#32, 0#32, 0#32, []) ∧
    field State.outBuf (step { midJob with phase := .done, turns := [.resetLine] }) = some midJob.outBuf := by decide
/-- P4 step 4: in ERROR the engine's turn passes. -/
theorem test_engine_turn_passes :
    step { fresh with phase := .error, err := .configInvalid, turns := [.engine] } =
      .next { fresh with phase := .error, err := .configInvalid } := rfl

/-! ### Witnesses: states and operands that meet the hypotheses of the statements -/

theorem test_meets_DecodeOfEncodeIsIdentity :
    WellFormed (.run 128 0x07#8) = true ∧ encode (.run 128 0x07#8) = some (.segment [0x81#8, 0x07#8]) := by decide

theorem test_meets_SegmentIsReadFromStreamFront :
    WellFormed (.lit [0xAB#8]) = true ∧ encode (.lit [0xAB#8]) = some (.segment [0x00#8, 0xAB#8]) := by decide

theorem test_meets_DecodedSegmentEncodesBack :
    decodeSegment [0xFE#8, 0xF0#8, 0x80#8] = .ok (.run 3 0xF0#8, [0x80#8]) := by decide

theorem test_meets_ControlByteSelectsClass :
    (0x7F#8).toNat ≤ 0x7F ∧ (List.replicate 128 0#8).length = (0x7F#8).toNat + 1 ∧ 0x81 ≤ (0x81#8).toNat := by decide +kernel

theorem test_meets_ControlByteArithmetic :
    (0x7F#8).toNat ≤ 0x7F ∧ 0x81 ≤ (0x81#8).toNat ∧ (2 ≤ 128 ∧ 128 ≤ 128) ∧ (2 ≤ 127 ∧ 127 ≤ 127) ∧
      (1 ≤ 128 ∧ 128 ≤ 128) := by decide

theorem test_meets_OtherAccessesAreRefused :
    ¬ ∃ i, decodeAccess ⟨.reg, 0x20#32, 32, .read, 0#32⟩ = .ok i := by
  rintro ⟨i, h⟩
  have e : decodeAccess ⟨.reg, 0x20#32, 32, .read, 0#32⟩ = .error .regOffset := by decide
  rw [e] at h; cases h

theorem test_meets_ReferenceReaderComputesRefDecode :
    (fresh.refOut = [] ∧ fresh.refError = none) ∧
    ({ fresh with refStream := [0xFE#8, 0xF0#8], turns := [.reference, .reference, .engine] } : State).turns =
      List.replicate 2 .reference ++ [.engine] := by decide

/-- A stream that ends in an error of RefDecode. -/
theorem test_meets_ReferenceReaderComputesRefDecode_error :
    ({ fresh with refStream := [0xFE#8], turns := [.reference] } : State).turns = List.replicate 1 .reference ++ [] ∧
    refDecode [0xFE#8] = .error .truncatedRun := by decide

theorem test_meets_RefDecodeOfConcatenation : refDecode [0xFE#8, 0xF0#8] = .ok [0xF0#8, 0xF0#8, 0xF0#8] := by decide

theorem test_meets_RefDecodeReportsTruncation :
    refDecode [0x80#8] = .ok [] ∧ ((0x05#8).toNat ≤ 0x7F ∧ [0x01#8, 0x02#8].length < (0x05#8).toNat + 1) ∧
      0x81 ≤ (0x81#8).toNat := by decide

theorem test_meets_StepRunsDecodedInstruction_host :
    decodeAccess ⟨.reg, 0x04#32, 32, .read, 0#32⟩ = .ok .hostRdStatus := by decide

theorem test_meets_StepRunsDecodedInstruction_reference :
    fresh.refError = none ∧ decodeSegment [0x80#8] = .ok (.rsvd, []) := by decide

theorem test_meets_StepRunsDecodedInstruction_engine :
    midJob.phase = .busy ∧ midJob.turns = [] ∧ engineChoice midJob = some (.emitLit 2) ∧ fresh.phase ≠ .busy := by decide

theorem test_meets_StepTakesOneTurnAndKeepsParameters : ∃ t, step midJob = .next t := ⟨_, rfl⟩

theorem test_meets_StartBeginsJobOrReportsConfig : (0x1#32).getLsbD 0 = true := by decide

theorem test_meets_CtrlReadsZeroAndClearBitDoesNothing : (0xFFFFFFFE#32).getLsbD 0 = false := by decide

theorem test_meets_StatusReadReturnsCodes :
    ErrMatchesState { fresh with phase := .error, err := .configInvalid } := by unfold ErrMatchesState; decide

theorem test_meets_ReadAfterRegisterWriteReturnsIt : fresh.phase ≠ .busy := by decide

theorem test_meets_bufferAddress_in_range :
    (15#32).toNat < fresh.params.inSize ∧ (15#32).toNat < fresh.params.outSize := by decide

theorem test_meets_BufferAccessBeyondSizeIsRefused :
    (fresh.params.inSize ≤ (16#32).toNat ∧ fresh.params.outSize ≤ (16#32).toNat) ∧
    (Space.outBuf ≠ Space.reg ∧ 32 ≠ 8) ∧ (16 ≠ 32) ∧ (0x1E#32).toNat % 4 ≠ 0 := by decide

theorem test_meets_ReadsHaveNoSideEffect : ∃ t, exec (.hostRdOut 15#32) fresh = .next t ∧ fresh.phase ≠ .busy :=
  ⟨_, rfl, by decide⟩

theorem test_meets_BusyEngineIgnoresHost :
    ∃ t, isHostOp (.hostWrOut 15#32 0#8) = true ∧ midJob.phase = .busy ∧ exec (.hostWrOut 15#32 0#8) midJob = .next t :=
  ⟨_, rfl, rfl, rfl⟩

theorem test_meets_OnlyNamedInstructionsWriteEachPart :
    (∃ t, exec (.emitLit 2) midJob = .next t) ∧ (∃ t, exec (.hostWrInLen 3#32) fresh = .next t) ∧
    (∃ t, exec (.lit [0#8]) fresh = .next t) ∧ (∃ t, exec (.hostRdOut 0#32) midJob = .next t) ∧
    (∃ t, exec .hostRdStatus fresh = .next t) :=
  ⟨⟨_, rfl⟩, ⟨_, rfl⟩, ⟨_, rfl⟩, ⟨_, rfl⟩, ⟨_, rfl⟩⟩

theorem test_meets_InputIsFixedDuringJob : ∃ t, midJob.phase = .busy ∧ step midJob = .next t ∧ t.phase = .busy :=
  ⟨_, rfl, rfl, rfl⟩

theorem test_meets_CanonicalMemoriesReadAlikeAreEqual :
    Memory.wf (powerOn params16.initIn) 16 [(0, 0x41#8), (15, 0x42#8)] = true ∧
    Memory.wf (powerOn params16.initIn) 16 [(0, 0x55#8)] = false ∧
    Memory.wf (powerOn params16.initIn) 16 [(16, 0x41#8)] = false ∧
    Memory.wf (powerOn params16.initIn) 16 [(1, 0x41#8), (0, 0x41#8)] = false := by decide

theorem test_meets_RunSegmentsAreMaximalRuns :
    (⟨.run, 0, 127⟩ : Segment) ∈ partition (fun _ => 0x07#8) 128 ∧
    (⟨.run, 0, 2⟩ : Segment) ∈ partition (fun j => [0x05#8, 0x05#8, 0x06#8].getD j 0#8) 3 := by decide +kernel

theorem test_meets_LiteralSpansStopAtRuns :
    (⟨.lit, 0, 2⟩ : Segment) ∈ partition (fun j => [0x01#8, 0x02#8, 0x03#8, 0x03#8].getD j 0#8) 4 := by decide

theorem test_meets_PartitionTilesTheInput :
    (partition (fun _ => 0x07#8) 128)[1]? = some ⟨.lit, 127, 1⟩ := by decide +kernel

theorem test_meets_InputWithoutRunsIsAllSpans : ∀ k, k + 1 < 3 → [1#8, 2#8, 1#8].getD k 0#8 ≠ [1#8, 2#8, 1#8].getD (k + 1) 0#8 := by
  intro k hk
  match k, hk with
  | 0, _ => decide
  | 1, _ => decide

theorem test_meets_EqualBytesEncodeAsCappedRuns : ∀ k, k < 128 → (fun _ : Nat => 0x07#8) k = 0x07#8 := fun _ _ => rfl

/-- A pair at the first byte, no pair at the second, and the last byte, which has no next. -/
theorem test_meets_PairsAreAlwaysRuns :
    (0 + 1 < 3 ∧ [5#8, 5#8, 6#8].getD 0 0#8 = [5#8, 5#8, 6#8].getD (0 + 1) 0#8) ∧
    (1 < 3 ∧ ¬ (1 + 1 < 3 ∧ [5#8, 5#8, 6#8].getD 1 0#8 = [5#8, 5#8, 6#8].getD (1 + 1) 0#8)) ∧
    (2 < 3 ∧ ¬ 2 + 1 < 3) := by decide

theorem test_meets_DispatchSelectsExactlyOneStep :
    (midJob.phase = .busy ∧ JobInBounds midJob) ∧ isEngineStep (.emitLit 2) = true ∧
    (isEngineStep .exhaust = true ∧ engineChoice midJob ≠ some .exhaust) ∧ fresh.phase ≠ .busy := by
  unfold JobInBounds InputInBounds OutputInBounds; decide

theorem test_meets_FinishEndsInDone : (job [] 0).phase = .busy ∧ (job [] 0).inPos = (job [] 0).inLen := by decide

theorem test_meets_EmitRunWritesControlAndByte :
    (job input3 2).phase = .busy ∧ (job input3 2).inPos.toNat < (job input3 2).inLen.toNat ∧
    (job input3 2).inLen.toNat ≤ (job input3 2).params.inSize ∧
    (job input3 2).outCap.toNat ≤ (job input3 2).params.outSize ∧
    partitionAt (readIn (job input3 2)) 5 0 = ⟨.run, 0, 3⟩ ∧
    (job input3 2).outLen.toNat + 2 ≤ (job input3 2).outCap.toNat := by decide

theorem test_meets_EmitLitWritesControlAndSpan :
    midJob.phase = .busy ∧ midJob.inPos.toNat < midJob.inLen.toNat ∧ midJob.inLen.toNat ≤ midJob.params.inSize ∧
    midJob.outCap.toNat ≤ midJob.params.outSize ∧ partitionAt (readIn midJob) 5 3 = ⟨.lit, 3, 2⟩ ∧
    midJob.outLen.toNat + 2 + 1 ≤ midJob.outCap.toNat := by decide

theorem test_meets_ExhaustReportsAndWritesNothing :
    midJob.phase = .busy ∧ midJob.inPos.toNat < midJob.inLen.toNat ∧ midJob.inLen.toNat ≤ midJob.params.inSize ∧
    (partitionAt (readIn midJob) 5 3).kind = .lit ∧
    (4#32).toNat < midJob.outLen.toNat + ((partitionAt (readIn midJob) 5 3).len + 1) := by decide

theorem test_meets_EngineStepStaysInsideCapacity : ∃ t, midJob.phase = .busy ∧ engineTurn midJob = .next t :=
  ⟨_, rfl, rfl⟩

/-- Two engines that differ in OUT, in IN beyond IN_LEN and in size. -/
def otherJob : State :=
  { midJob with
    params := ⟨List.replicate 8 0x11#8, List.replicate 32 0x22#8⟩, inBuf := cells (input3 ++ [0x99#8]), outBuf := [] }

theorem test_meets_EngineStepSeesOnlyJobInput :
    (otherJob.phase = .busy ∧ midJob.err = otherJob.err ∧ midJob.inLen = otherJob.inLen ∧
      midJob.outCap = otherJob.outCap ∧ midJob.inPos = otherJob.inPos ∧ midJob.outLen = otherJob.outLen) ∧
    (JobInBounds midJob ∧ JobInBounds otherJob) ∧ inSlice midJob 0 5 = inSlice otherJob 0 5 := by
  unfold JobInBounds InputInBounds OutputInBounds; decide

theorem test_meets_JobThatFitsEndsWithEncoding :
    JobBegun (job input3 5) ∧ (jobEncoding (job input3 5)).length ≤ (job input3 5).outCap.toNat := by
  unfold JobBegun; decide

theorem test_meets_JobThatDoesNotFitStopsWithWholeSegments :
    JobBegun (job input3 4) ∧ (job input3 4).outCap.toNat < (jobEncoding (job input3 4)).length := by
  unfold JobBegun; decide

theorem test_meets_SafeCapacityAlwaysEndsInDone :
    JobBegun (job input3 7) ∧
    (job input3 7).inLen.toNat + ((job input3 7).inLen.toNat + 2) / 3 ≤ (job input3 7).outCap.toNat := by
  unfold JobBegun; decide

theorem test_meets_ResetClearsRegistersAndKeepsBuffers :
    ({ midJob with turns := [.resetLine] } : State).turns = .resetLine :: [] ∧ midJob.phase = .busy ∧
    (midJob.outLen.toNat ≤ 15 ∧ 15 < midJob.outCap.toNat ∧ 15 < midJob.params.outSize) ∧
    (midJob.outLen.toNat ≤ 2 ∧ 2 < midJob.outCap.toNat ∧ 2 < midJob.params.outSize) ∧
    (1 < midJob.outLen.toNat ∧ midJob.outCap.toNat ≤ 16) ∧ fresh.phase ≠ .busy := by decide

theorem test_meets_PowerOnStateIsIdleWithOpenContents : 0 < Config.inSize ∧ 1 < Config.outSize := by
  unfold Config.inSize Config.outSize; omega

theorem test_meets_EveryStepKeepsTheInvariant : MachineInv midJob ∧ ∃ t, step midJob = .next t := by
  refine ⟨?_, _, rfl⟩
  unfold MachineInv MemoryOk ErrMatchesState ProgressOk JobInBounds InputInBounds OutputInBounds
  decide

theorem test_meets_EveryStepKeepsWrittenPartDecodable : DecodesSoFar midJob := by
  unfold DecodesSoFar WrittenDecodes; decide

theorem test_meets_EveryStepKeepsWrittenPartOfEncoding : EncodesSoFar midJob := by
  unfold EncodesSoFar WrittenBeginsEncoding; decide

/-- That job with capacity 3: its next step is EXHAUST. -/
def shortJob : State := { midJob with outCap := 3#32 }

/-- A step that ends the job in ERROR. -/
theorem test_meets_EveryStepKeepsWrittenPart_error :
    (MachineInv shortJob ∧ DecodesSoFar shortJob ∧ EncodesSoFar shortJob) ∧
    shortJob.phase = .busy ∧ ∃ t, step shortJob = .next t ∧ t.phase = .error := by
  refine ⟨?_, rfl, _, rfl, rfl⟩
  unfold MachineInv MemoryOk ErrMatchesState ProgressOk JobInBounds InputInBounds OutputInBounds DecodesSoFar WrittenDecodes
    EncodesSoFar WrittenBeginsEncoding
  decide

/-- A step that ends the job in DONE. -/
theorem test_meets_EveryStepKeepsWrittenPart_done :
    (MachineInv (job [] 0) ∧ DecodesSoFar (job [] 0) ∧ EncodesSoFar (job [] 0)) ∧
    (job [] 0).phase = .busy ∧ ∃ t, step (job [] 0) = .next t ∧ t.phase = .done := by
  refine ⟨?_, rfl, _, rfl, rfl⟩
  unfold MachineInv MemoryOk ErrMatchesState ProgressOk JobInBounds InputInBounds OutputInBounds DecodesSoFar WrittenDecodes
    EncodesSoFar WrittenBeginsEncoding
  decide

/-- All that JobRulesStandUntilHostRewrites asks of the rules of R38, in a state whose partition is known to be `k` segments
long so far. -/
theorem jobRules_intro (s : State) (k : Nat)
    (h : MachineInv s ∧ InputInBounds s ∧ OutputInBounds s ∧ WrittenDecodes s ∧ WrittenBeginsEncoding s ∧
      k ≤ (jobPartition s).length ∧
      outSlice s 0 s.outLen.toNat = ((jobPartition s).take k).flatMap (segmentBytes (readIn s)) ∧
      s.inPos.toNat = (((jobPartition s).take k).map Segment.len).sum) :
    MachineInv s ∧ SinceStart InputInBounds s ∧ SinceStart OutputInBounds s ∧ SinceStart WrittenDecodes s ∧
      SinceStart WrittenBeginsEncoding s ∧ SinceStart WrittenIsWholeSegments s :=
  ⟨h.1, fun _ => h.2.1, fun _ => h.2.2.1, fun _ => h.2.2.2.1, fun _ => h.2.2.2.2.1,
    fun _ => ⟨k, h.2.2.2.2.2⟩⟩

/-- A job that ended in ERROR after one of its two segments, and the host about to write the first byte after OUT_LEN. -/
def endedInError : State :=
  { shortJob with
    phase := .error, err := .outputBufferExhausted, turns := [.host ⟨.outBuf, 2#32, 8, .write, 0x99#32⟩] }

/-- The job of P3 that ended in DONE, and the host about to write the first byte after IN_LEN. -/
def endedInDone : State :=
  { job input3 5 with
    phase := .done, inPos := 5#32, outLen := 5#32, outBuf := cells [0xFE#8, 0x41#8, 0x01#8, 0x42#8, 0x43#8],
    turns := [.host ⟨.inBuf, 5#32, 8, .write, 0x99#32⟩] }

theorem test_meets_JobRulesStandUntilHostRewrites_busy :
    (MachineInv midJob ∧ SinceStart InputInBounds midJob ∧ SinceStart OutputInBounds midJob ∧
      SinceStart WrittenDecodes midJob ∧ SinceStart WrittenBeginsEncoding midJob ∧
      SinceStart WrittenIsWholeSegments midJob) ∧
    JobAccepted midJob ∧ ∃ t, step midJob = .next t ∧ JobAccepted t := by
  refine ⟨jobRules_intro midJob 1 ?_, by unfold JobAccepted; decide, _, rfl, by unfold JobAccepted; decide⟩
  unfold MachineInv MemoryOk ErrMatchesState ProgressOk JobInBounds InputInBounds OutputInBounds WrittenDecodes
    WrittenBeginsEncoding
  decide

/-- The byte written is the boundary of the clauses on OUT. -/
theorem test_meets_JobRulesStandUntilHostRewrites_error :
    (MachineInv endedInError ∧ SinceStart InputInBounds endedInError ∧ SinceStart OutputInBounds endedInError ∧
      SinceStart WrittenDecodes endedInError ∧ SinceStart WrittenBeginsEncoding endedInError ∧
      SinceStart WrittenIsWholeSegments endedInError) ∧
    nextHostOp endedInError = some (.hostWrOut 2#32 0x99#8) ∧ endedInError.outLen.toNat ≤ (2#32).toNat ∧
    JobAccepted endedInError ∧ ∃ t, step endedInError = .next t ∧ JobAccepted t := by
  refine ⟨jobRules_intro endedInError 1 ?_, by decide, by decide, by unfold JobAccepted; decide, _, rfl,
    by unfold JobAccepted; decide⟩
  unfold MachineInv MemoryOk ErrMatchesState ProgressOk JobInBounds InputInBounds OutputInBounds WrittenDecodes
    WrittenBeginsEncoding
  decide

/-- The boundary of the clauses on IN. -/
theorem test_meets_JobRulesStandUntilHostRewrites_done :
    (MachineInv endedInDone ∧ SinceStart InputInBounds endedInDone ∧ SinceStart OutputInBounds endedInDone ∧
      SinceStart WrittenDecodes endedInDone ∧ SinceStart WrittenBeginsEncoding endedInDone ∧
      SinceStart WrittenIsWholeSegments endedInDone) ∧
    nextHostOp endedInDone = some (.hostWrIn 5#32 0x99#8) ∧
    endedInDone.inPos.toNat ≤ (5#32).toNat ∧ endedInDone.inLen.toNat ≤ (5#32).toNat ∧
    JobAccepted endedInDone ∧ ∃ t, step endedInDone = .next t ∧ JobAccepted t := by
  refine ⟨jobRules_intro endedInDone 2 ?_, by decide, by decide, by decide, by unfold JobAccepted; decide, _, rfl,
    by unfold JobAccepted; decide⟩
  unfold MachineInv MemoryOk ErrMatchesState ProgressOk JobInBounds InputInBounds OutputInBounds WrittenDecodes
    WrittenBeginsEncoding
  decide

theorem test_meets_EnginesShareNothing :
    (∃ q, platformStep [fresh, midJob] 1 = .next q) ∧ (∃ q, platformStep [midJob, midJob] 1 = .next q) ∧
    ([fresh, midJob] : List State)[1]? = ([midJob, midJob] : List State)[1]? ∧
    ([fresh, midJob] : List State)[1]? = some midJob ∧ ∃ t, step midJob = .next t :=
  ⟨⟨_, rfl⟩, ⟨_, rfl⟩, rfl, rfl, _, rfl⟩

end Sys2Proof.Tests
end

section
/-! Every step takes one turn and keeps the parameters: no instruction touches the list of turns or the parameters, so what a
step does to them is what `nextTurn` does, which is to take the first turn off the list. -/

namespace Sys2Proof.Machine

/-- From `s` to `t` neither the turns to come nor the parameters changed. -/
structure KeepsTurnsAndParams (s t : State) : Prop where
  turns  : t.turns = s.turns
  params : t.params = s.params

/-! ### The shared operations -/

theorem unlessBusy_keepsTurnsAndParams {s t : State} (h : KeepsTurnsAndParams s t) :
    KeepsTurnsAndParams s (unlessBusy s t) := by
  rcases unlessBusy_cases s t with ⟨-, e⟩ | ⟨-, e⟩ <;> rw [e]
  · exact ⟨rfl, rfl⟩
  · exact h

theorem startJob_keepsTurnsAndParams (s : State) : KeepsTurnsAndParams s (startJob s) := by
  rcases startJob_cases s with ⟨-, e⟩ | ⟨-, -, e⟩ | ⟨-, -, e⟩ <;> rw [e] <;> exact ⟨rfl, rfl⟩

theorem commitSegment_keepsTurnsAndParams {s t : State} {len : Nat} {bytes : List Byte}
    (h : commitSegment s len bytes = .next t) : KeepsTurnsAndParams s t := by
  obtain ⟨-, rfl⟩ := commitSegment_next.mp h
  exact ⟨rfl, rfl⟩

/-! ### Instructions and turns -/

/-- No instruction changes the turns to come or the parameters. -/
theorem exec_keepsTurnsAndParams {i : Instr} {s t : State} (h : exec i s = .next t) : KeepsTurnsAndParams s t := by
  cases i with
  | lit | rsvd | run | hostWrCtrl0 | hostRdCtrl | hostRdStatus | hostRdReg | hostWrRo =>
    obtain rfl := Host.Outcome.next.inj h
    exact ⟨rfl, rfl⟩
  | hostRsvd r acc =>
    cases acc <;> obtain rfl := Host.Outcome.next.inj h <;> exact ⟨rfl, rfl⟩
  | hostStart =>
    exact Host.Outcome.next.inj h ▸ startJob_keepsTurnsAndParams s
  | hostWrInLen | hostWrOutCap =>
    exact Host.Outcome.next.inj h ▸ unlessBusy_keepsTurnsAndParams ⟨rfl, rfl⟩
  | hostWrIn =>
    obtain ⟨-, rfl⟩ := atInAddress_next.mp h
    exact unlessBusy_keepsTurnsAndParams ⟨rfl, rfl⟩
  | hostRdIn =>
    obtain ⟨-, rfl⟩ := atInAddress_next.mp h
    exact ⟨rfl, rfl⟩
  | hostWrOut =>
    obtain ⟨-, rfl⟩ := atOutAddress_next.mp h
    exact unlessBusy_keepsTurnsAndParams ⟨rfl, rfl⟩
  | hostRdOut =>
    obtain ⟨-, rfl⟩ := atOutAddress_next.mp h
    split <;> exact ⟨rfl, rfl⟩
  | finish | exhaust =>
    obtain ⟨-, -, ho⟩ := whenSelected_next.mp h
    obtain rfl := Host.Outcome.next.inj ho
    exact ⟨rfl, rfl⟩
  | emitRun | emitLit =>
    obtain ⟨-, -, ho⟩ := whenSelected_next.mp h
    exact commitSegment_keepsTurnsAndParams ho

theorem engineTurn_keepsTurnsAndParams {s t : State} (h : engineTurn s = .next t) : KeepsTurnsAndParams s t := by
  rcases engineTurn_cases s with ⟨-, e⟩ | ⟨-, i, -, e⟩ | ⟨-, -, e⟩ <;> rw [e] at h
  · obtain rfl := Host.Outcome.next.inj h
    exact ⟨rfl, rfl⟩
  · exact exec_keepsTurnsAndParams h
  · cases h

theorem hostTurn_keepsTurnsAndParams {a : HostAccess} {s t : State} (h : hostTurn a s = .next t) :
    KeepsTurnsAndParams s t := by
  rcases hostTurn_cases a s with ⟨i, -, e⟩ | ⟨r, -, e⟩ <;> rw [e] at h
  · exact exec_keepsTurnsAndParams h
  · cases h

theorem referenceTurn_keepsTurnsAndParams {s t : State} (h : referenceTurn s = .next t) : KeepsTurnsAndParams s t := by
  rcases referenceTurn_cases s with e | ⟨i, rest, -, e⟩ | ⟨r, -, e⟩ <;> rw [e] at h
  · obtain rfl := Host.Outcome.next.inj h
    exact ⟨rfl, rfl⟩
  · obtain ⟨ht, hp⟩ := exec_keepsTurnsAndParams h
    exact ⟨ht, hp⟩
  · obtain rfl := Host.Outcome.next.inj h
    exact ⟨rfl, rfl⟩

theorem takeTurn_keepsTurnsAndParams {u : Turn} {s t : State} (h : takeTurn u s = .next t) :
    KeepsTurnsAndParams s t := by
  cases u with
  | host a => exact hostTurn_keepsTurnsAndParams h
  | engine => exact engineTurn_keepsTurnsAndParams h
  | reference => exact referenceTurn_keepsTurnsAndParams h
  | resetLine =>
    obtain rfl := Host.Outcome.next.inj h
    exact ⟨resetEvent_turns s, resetEvent_params s⟩

/-- Settles O13: the step takes the first turn off the list before it runs it, and no kind of turn changes what is left of the
list or the parameters. -/
theorem stepTakesOneTurnAndKeepsParameters : Obligations.StepTakesOneTurnAndKeepsParameters := by
  intro s t h
  cases hs : s.turns with
  | nil =>
    obtain ⟨ht, hp⟩ := engineTurn_keepsTurnsAndParams (step_nil hs ▸ h)
    exact ⟨ht.trans hs, hp⟩
  | cons u us =>
    obtain ⟨ht, hp⟩ := takeTurn_keepsTurnsAndParams (step_cons hs ▸ h)
    exact ⟨ht, hp⟩

end Sys2Proof.Machine
end

section
/-! What the partitioner's segments are: where they end, which bytes they read, how long their encodings are, and that
Partition(x) and Encode(x) can be read from any position on (40_partitioner.md R92 to R97). -/

namespace Sys2Proof.Machine

variable {x y : Nat → Byte} {n i : Nat}

/-! ### One segment -/

/-- A run covers only bytes of the input. -/
theorem runLengthLoop_end_le {fuel l : Nat} (h : i + l ≤ n) : i + runLengthLoop x n i fuel l ≤ n := by
  induction fuel generalizing l with
  | zero => exact h
  | succ fuel ih =>
    unfold runLengthLoop
    split
    · rename_i hc; exact ih hc.1
    · exact h

/-- A span covers only bytes of the input. -/
theorem litLengthLoop_end_le {fuel l : Nat} (h : i + l ≤ n) : i + litLengthLoop x n i fuel l ≤ n := by
  induction fuel generalizing l with
  | zero => exact h
  | succ fuel ih =>
    unfold litLengthLoop
    split
    · rename_i hc; exact ih hc.1
    · exact h

/-- The bytes a run covers are all its first. -/
theorem runLengthLoop_bytes {fuel l : Nat} (h : ∀ k, k < l → x (i + k) = x i) :
    ∀ k, k < runLengthLoop x n i fuel l → x (i + k) = x i := by
  induction fuel generalizing l with
  | zero => exact h
  | succ fuel ih =>
    unfold runLengthLoop
    split
    · rename_i hc
      refine ih fun k hk => ?_
      rcases Nat.lt_succ_iff_lt_or_eq.mp hk with hk | rfl
      · exact h k hk
      · exact hc.2.2
    · exact h

/-- Two equal bytes make a run of at least two. -/
theorem two_le_runLength (h : runStart x n i = true) : 2 ≤ runLength x n i := by
  obtain ⟨hn, hx⟩ := runStart_iff.mp h
  have hc : i + 1 < n ∧ 1 < Config.runCap ∧ x (i + 1) = x i := ⟨hn, by decide, hx.symm⟩
  have hl : runLength x n i = runLengthLoop x n i 126 2 := if_pos hc
  exact hl ▸ runLengthLoop_ge x n i 126 2

/-- PARTITION(i) is a run exactly where two equal bytes start at i. -/
theorem partitionAt_cases (x : Nat → Byte) (n i : Nat) :
    (runStart x n i = true ∧ partitionAt x n i = ⟨.run, i, runLength x n i⟩) ∨
    (runStart x n i = false ∧ partitionAt x n i = ⟨.lit, i, spanLength x n i⟩) := by
  unfold partitionAt
  cases h : runStart x n i
  · exact .inr ⟨rfl, rfl⟩
  · exact .inl ⟨rfl, rfl⟩

/-- A segment of an input lies inside it. -/
theorem partitionAt_end_le (h : i < n) : i + (partitionAt x n i).len ≤ n := by
  rcases partitionAt_cases x n i with ⟨-, e⟩ | ⟨-, e⟩ <;> rw [e]
  · exact runLengthLoop_end_le h
  · exact litLengthLoop_end_le h

theorem segmentBytes_length (x : Nat → Byte) (g : Segment) : (segmentBytes x g).length = outLength g.kind g.len := by
  obtain ⟨_ | _, start, len⟩ := g
  · rfl
  · simp [segmentBytes, outLength]

/-! ### The segments from a position on -/

theorem partitionFrom_of_lt {fuel : Nat} (h : i < n) :
    partitionFrom x n (fuel + 1) i = partitionAt x n i :: partitionFrom x n fuel (i + (partitionAt x n i).len) :=
  if_pos h

theorem partitionFrom_of_le {fuel : Nat} (h : n ≤ i) : partitionFrom x n fuel i = [] := by
  cases fuel with
  | zero => rfl
  | succ fuel => exact if_neg (Nat.not_lt.mpr h)

/-- As many turns as bytes are left are enough. -/
theorem partitionFrom_of_fuel {fuel : Nat} (h : n - i ≤ fuel) : partitionFrom x n fuel i = partitionFrom x n (n - i) i := by
  induction fuel using Nat.strong_induction_on generalizing i with
  | _ fuel ih =>
    rcases Nat.lt_or_ge i n with hi | hi
    · obtain ⟨f, rfl⟩ : ∃ f, fuel = f + 1 := ⟨fuel - 1, by omega⟩
      obtain ⟨m, hm⟩ : ∃ m, n - i = m + 1 := ⟨n - i - 1, by omega⟩
      have hl := partitionAt_len_pos x n i
      rw [hm, partitionFrom_of_lt hi, partitionFrom_of_lt hi, ih f (by omega) (by omega), ih m (by omega) (by omega)]
    · rw [partitionFrom_of_le hi, partitionFrom_of_le hi]

/-- Every segment from a position on is the one PARTITION gives where it starts, inside the input. -/
theorem mem_partitionFrom {fuel : Nat} {g : Segment} (h : g ∈ partitionFrom x n fuel i) :
    g.start < n ∧ g = partitionAt x n g.start := by
  induction fuel generalizing i with
  | zero => cases h
  | succ fuel ih =>
    rcases Nat.lt_or_ge i n with hi | hi
    · rw [partitionFrom_of_lt hi] at h
      rcases List.mem_cons.mp h with rfl | h
      · rw [partitionAt_start]; exact ⟨hi, rfl⟩
      · exact ih h
    · rw [partitionFrom_of_le hi] at h; cases h

/-- After the first `k` segments come those from the position they end at. -/
theorem drop_partitionFrom {fuel k : Nat} (h : k ≤ (partitionFrom x n fuel i).length) :
    (partitionFrom x n fuel i).drop k =
      partitionFrom x n (fuel - k) (i + (((partitionFrom x n fuel i).take k).map Segment.len).sum) := by
  induction k generalizing fuel i with
  | zero => rfl
  | succ k ih =>
    cases fuel with
    | zero => cases h
    | succ fuel =>
      rcases Nat.lt_or_ge i n with hi | hi
      · rw [partitionFrom_of_lt hi] at h ⊢
        simp [ih (Nat.le_of_succ_le_succ h), Nat.add_assoc]
      · rw [partitionFrom_of_le hi] at h; cases h

/-- `k` segments cover at least `k` bytes. -/
theorem le_sum_take_partitionFrom {fuel k : Nat} (h : k ≤ (partitionFrom x n fuel i).length) :
    k ≤ (((partitionFrom x n fuel i).take k).map Segment.len).sum := by
  have hlen : (((partitionFrom x n fuel i).take k).map Segment.len).length = k := by simp [h]
  have hpos : ∀ l ∈ ((partitionFrom x n fuel i).take k).map Segment.len, 1 ≤ l := by
    intro l hl
    obtain ⟨g, hg, rfl⟩ := List.mem_map.mp hl
    obtain ⟨-, e⟩ := mem_partitionFrom (List.mem_of_mem_take hg)
    exact e ▸ partitionAt_len_pos x n g.start
  calc k = (((partitionFrom x n fuel i).take k).map Segment.len).length := hlen.symm
    _ ≤ _ := by simpa using List.card_nsmul_le_sum _ 1 hpos

/-- Where the first `k` segments end inside the input, the next one is PARTITION's there. -/
theorem take_succ_partition {k : Nat} (hk : k ≤ (partition x n).length)
    (hi : i = (((partition x n).take k).map Segment.len).sum) (hn : i < n) :
    k + 1 ≤ (partition x n).length ∧ (partition x n).take (k + 1) = (partition x n).take k ++ [partitionAt x n i] := by
  have hki : k ≤ i := hi ▸ le_sum_take_partitionFrom hk
  have hd : (partition x n).drop k = partitionFrom x n (n - k) i := by
    rw [hi]; simpa [partition] using drop_partitionFrom hk
  obtain ⟨f, hf⟩ : ∃ f, n - k = f + 1 := ⟨n - k - 1, by omega⟩
  rw [hf, partitionFrom_of_lt hn] at hd
  have hlt : k < (partition x n).length := by
    by_contra hge
    rw [List.drop_eq_nil_of_le (Nat.not_lt.mp hge)] at hd
    cases hd
  have hget : (partition x n)[k] = partitionAt x n i := by
    rw [List.drop_eq_getElem_cons hlt] at hd
    exact (List.cons.inj hd).1
  exact ⟨hlt, by rw [List.take_succ_eq_append_getElem hlt, hget]⟩

/-! ### The encoding from a position on -/

theorem encodeFrom_zero (x : Nat → Byte) (n : Nat) : encodeFrom x n 0 = encodeInput x n := rfl

theorem encodeFrom_end (x : Nat → Byte) (n : Nat) : encodeFrom x n n = [] := by
  simp [encodeFrom, partitionFrom_of_le]

/-- The encoding of the rest starts with the segment PARTITION gives. -/
theorem encodeFrom_of_lt (h : i < n) :
    encodeFrom x n i = segmentBytes x (partitionAt x n i) ++ encodeFrom x n (i + (partitionAt x n i).len) := by
  have hl := partitionAt_len_pos x n i
  obtain ⟨m, hm⟩ : ∃ m, n - i = m + 1 := ⟨n - i - 1, by omega⟩
  have hrest : partitionFrom x n m (i + (partitionAt x n i).len) =
      partitionFrom x n (n - (i + (partitionAt x n i).len)) (i + (partitionAt x n i).len) :=
    partitionFrom_of_fuel (by omega)
  rw [encodeFrom, hm, partitionFrom_of_lt h, hrest]
  rfl

/-! ### Only the bytes of the input count -/

theorem runStart_congr (h : ∀ j, j < n → x j = y j) (i : Nat) : runStart x n i = runStart y n i := by
  rw [Bool.eq_iff_iff, runStart_iff, runStart_iff]
  exact and_congr_right fun hn => by rw [h i (by omega), h (i + 1) hn]

theorem runLengthLoop_congr (h : ∀ j, j < n → x j = y j) (hi : i < n) (fuel l : Nat) :
    runLengthLoop x n i fuel l = runLengthLoop y n i fuel l := by
  induction fuel generalizing l with
  | zero => rfl
  | succ fuel ih =>
    have hc : (i + l < n ∧ l < Config.runCap ∧ x (i + l) = x i) ↔ (i + l < n ∧ l < Config.runCap ∧ y (i + l) = y i) :=
      and_congr_right fun hn => by rw [h _ hn, h i hi]
    simp only [runLengthLoop, hc, ih]

theorem litLengthLoop_congr (h : ∀ j, j < n → x j = y j) (i fuel l : Nat) :
    litLengthLoop x n i fuel l = litLengthLoop y n i fuel l := by
  induction fuel generalizing l with
  | zero => rfl
  | succ fuel ih => simp only [litLengthLoop, runStart_congr h, ih]

theorem partitionAt_congr (h : ∀ j, j < n → x j = y j) (hi : i < n) : partitionAt x n i = partitionAt y n i := by
  simp only [partitionAt, runStart_congr h, runLength, runLengthLoop_congr h hi, spanLength, litLengthLoop_congr h]

theorem partitionFrom_congr (h : ∀ j, j < n → x j = y j) (fuel i : Nat) :
    partitionFrom x n fuel i = partitionFrom y n fuel i := by
  induction fuel generalizing i with
  | zero => rfl
  | succ fuel ih =>
    rcases Nat.lt_or_ge i n with hi | hi
    · rw [partitionFrom_of_lt hi, partitionFrom_of_lt hi, partitionAt_congr h hi, ih]
    · rw [partitionFrom_of_le hi, partitionFrom_of_le hi]

theorem partition_congr (h : ∀ j, j < n → x j = y j) : partition x n = partition y n := partitionFrom_congr h n 0

theorem segmentBytes_congr {g : Segment} (hpos : 1 ≤ g.len) (h : ∀ j, j < g.start + g.len → x j = y j) :
    segmentBytes x g = segmentBytes y g := by
  obtain ⟨_ | _, start, len⟩ := g
  · simp only [segmentBytes, h start (Nat.lt_add_of_pos_right hpos)]
  · have hm : (List.range len).map (fun k => x (start + k)) = (List.range len).map fun k => y (start + k) :=
      List.map_congr_left fun k hk => h _ (Nat.add_lt_add_left (List.mem_range.mp hk) start)
    simp only [segmentBytes, hm]

/-- Segments of a partition have the same bytes over inputs that agree. -/
theorem flatMap_segmentBytes_congr {gs : List Segment} {fuel : Nat} (h : ∀ j, j < n → x j = y j)
    (hgs : ∀ g ∈ gs, g ∈ partitionFrom x n fuel i) : gs.flatMap (segmentBytes x) = gs.flatMap (segmentBytes y) := by
  refine List.flatMap_congr fun g hg => ?_
  obtain ⟨hlt, e⟩ := mem_partitionFrom (hgs g hg)
  have hend : g.start + g.len ≤ n := by
    have hle := partitionAt_end_le (x := x) hlt
    rwa [← e] at hle
  refine segmentBytes_congr ?_ fun j hj => h j (by omega)
  exact e ▸ partitionAt_len_pos x n g.start

theorem encodeFrom_congr (h : ∀ j, j < n → x j = y j) (i : Nat) : encodeFrom x n i = encodeFrom y n i := by
  rw [encodeFrom, flatMap_segmentBytes_congr h fun _ hg => hg, partitionFrom_congr h, encodeFrom]

theorem encodeInput_congr (h : ∀ j, j < n → x j = y j) : encodeInput x n = encodeInput y n := encodeFrom_congr h 0

end Sys2Proof.Machine
end

section
/-! RefDecode of a stream with one more segment of the encoder's at its end (30_encoding.md R63, R75). -/

namespace Sys2Proof.Machine

/-! ### One turn of the loop -/

/-- A literal's turn copies its payload (30_encoding.md R65). -/
theorem refDecodeLoop_lit {c : Byte} {s : List Byte} (hc : c.toNat ≤ 0x7F) (hl : c.toNat + 1 ≤ s.length)
    (fuel : Nat) (out : List Byte) :
    refDecodeLoop (fuel + 1) (c :: s) out =
      refDecodeLoop fuel (s.drop (c.toNat + 1)) (out ++ s.take (c.toNat + 1)) := by
  simp [refDecodeLoop, hc, Nat.not_lt.mpr hl]

/-- A run's turn repeats its byte (30_encoding.md R66). -/
theorem refDecodeLoop_run {c : Byte} (hc : 0x81 ≤ c.toNat) (fuel : Nat) (v : Byte) (s out : List Byte) :
    refDecodeLoop (fuel + 1) (c :: v :: s) out =
      refDecodeLoop fuel s (out ++ List.replicate (257 - c.toNat) v) := by
  have h80 : c ≠ 0x80#8 := fun e => absurd (e ▸ hc) (by decide)
  simp [refDecodeLoop, show ¬ c.toNat ≤ 127 by omega, h80]

theorem refDecodeLoop_nil (fuel : Nat) (out : List Byte) : refDecodeLoop fuel [] out = .ok out := by
  cases fuel <;> rfl

/-- What a turn that gives a result has read: a whole literal, the reserved byte, or a whole run. -/
theorem refDecodeLoop_cons_ok {fuel : Nat} {c : Byte} {s out u : List Byte}
    (h : refDecodeLoop (fuel + 1) (c :: s) out = .ok u) :
    (c.toNat ≤ 0x7F ∧ c.toNat + 1 ≤ s.length) ∨ c = 0x80#8 ∨ (0x81 ≤ c.toNat ∧ ∃ v s', s = v :: s') := by
  by_cases hc : c.toNat ≤ 0x7F
  · refine .inl ⟨hc, Nat.le_of_not_lt fun hs => ?_⟩
    simp [refDecodeLoop, hc, hs] at h
  · by_cases h80 : c = 0x80#8
    · exact .inr (.inl h80)
    · have hne : c.toNat ≠ 0x80 := fun e => h80 (BitVec.eq_of_toNat_eq e)
      refine .inr (.inr ⟨by omega, ?_⟩)
      cases s with
      | nil => simp [refDecodeLoop, hc, h80] at h
      | cons v s' => exact ⟨v, s', rfl⟩

/-! ### Streams end to end -/

/-- Whole segments in front of a stream are read first, and the loop goes on with what they gave. -/
theorem refDecodeLoop_append {fuel : Nat} {a out u : List Byte} (b : List Byte)
    (h : refDecodeLoop fuel a out = .ok u) (ha : a.length ≤ fuel) :
    ∃ extra, refDecodeLoop (fuel + b.length) (a ++ b) out = refDecodeLoop (extra + b.length) b u := by
  induction fuel generalizing a out with
  | zero =>
    obtain rfl := List.length_eq_zero_iff.mp (Nat.le_zero.mp ha)
    obtain rfl := Except.ok.inj h
    exact ⟨0, rfl⟩
  | succ fuel ih =>
    cases a with
    | nil =>
      obtain rfl := Except.ok.inj h
      exact ⟨fuel + 1, rfl⟩
    | cons c s =>
      have hs : s.length ≤ fuel := Nat.le_of_succ_le_succ ha
      rw [Nat.succ_add]
      rcases refDecodeLoop_cons_ok h with ⟨hc, hl⟩ | rfl | ⟨hc, v, s', rfl⟩
      · rw [refDecodeLoop_lit hc hl] at h
        have hl' : c.toNat + 1 ≤ (s ++ b).length := by rw [List.length_append]; omega
        rw [List.cons_append, refDecodeLoop_lit hc hl', List.drop_append_of_le_length hl,
          List.take_append_of_le_length hl]
        exact ih h (by rw [List.length_drop]; omega)
      · exact ih h hs
      · rw [refDecodeLoop_run hc] at h
        rw [List.cons_append, List.cons_append, refDecodeLoop_run hc]
        exact ih h (Nat.le_of_succ_le hs)

/-! ### The encoder's segments -/

/-- The input bytes a segment covers. -/
def coveredBytes (x : Nat → Byte) (g : Segment) : List Byte := (List.range g.len).map fun k => x (g.start + k)

@[simp] theorem coveredBytes_length (x : Nat → Byte) (g : Segment) : (coveredBytes x g).length = g.len := by
  simp [coveredBytes]

/-- The bytes of a run are copies of its first. -/
theorem coveredBytes_eq_replicate {x : Nat → Byte} {g : Segment} (h : ∀ k, k < g.len → x (g.start + k) = x g.start) :
    coveredBytes x g = List.replicate g.len (x g.start) :=
  List.eq_replicate_iff.mpr ⟨coveredBytes_length x g, fun b hb => by
    obtain ⟨k, hk, rfl⟩ := List.mem_map.mp hb
    exact h k (List.mem_range.mp hk)⟩

/-- The loop reads a segment of the encoder's as the bytes it covers, where at least one turn is left (40_partitioner.md
R94). -/
theorem refDecodeLoop_segmentBytes (x : Nat → Byte) (n i fuel : Nat) (out : List Byte) :
    refDecodeLoop (fuel + 1) (segmentBytes x (partitionAt x n i)) out =
      .ok (out ++ coveredBytes x (partitionAt x n i)) := by
  rcases partitionAt_cases x n i with ⟨hr, e⟩ | ⟨-, e⟩ <;> rw [e]
  · have h2 : 2 ≤ runLength x n i := two_le_runLength hr
    have hcap : runLength x n i ≤ 127 := runLengthLoop_le_cap x n i _ 1 (by decide)
    have hc := runControl_toNat h2
    have hx : coveredBytes x ⟨.run, i, runLength x n i⟩ = List.replicate (runLength x n i) (x i) :=
      coveredBytes_eq_replicate (runLengthLoop_bytes fun k hk => by rw [Nat.lt_one_iff.mp hk, Nat.add_zero])
    have hcount : 257 - (runControl (runLength x n i)).toNat = runLength x n i := by omega
    have hseg : segmentBytes x ⟨.run, i, runLength x n i⟩ = [runControl (runLength x n i), x i] := rfl
    rw [hseg, refDecodeLoop_run (by omega), refDecodeLoop_nil, hcount, hx]
  · have h1 : 1 ≤ spanLength x n i := litLengthLoop_ge x n i _ 1
    have hcap : spanLength x n i ≤ 128 := litLengthLoop_le_cap x n i _ 1 (by decide)
    have hc := litControl_toNat hcap
    have hlen := coveredBytes_length x ⟨.lit, i, spanLength x n i⟩
    have hseg : segmentBytes x ⟨.lit, i, spanLength x n i⟩ =
        litControl (spanLength x n i) :: coveredBytes x ⟨.lit, i, spanLength x n i⟩ := by
      simp [segmentBytes, litBytes, coveredBytes]
    have htake : (litControl (spanLength x n i)).toNat + 1 = (coveredBytes x ⟨.lit, i, spanLength x n i⟩).length := by
      rw [hc, hlen]; exact Nat.sub_add_cancel h1
    rw [hseg, refDecodeLoop_lit (by omega) htake.le, htake, List.drop_length, List.take_length, refDecodeLoop_nil]

theorem segmentBytes_length_pos (x : Nat → Byte) (g : Segment) : 1 ≤ (segmentBytes x g).length := by
  obtain ⟨_ | _, start, len⟩ := g
  · exact Nat.le_add_left 1 1
  · exact Nat.le_add_left 1 _

/-- A stream that decodes to `u`, with the segment of PARTITION(i) after it, decodes to `u` and the bytes the segment covers
(30_encoding.md R78). -/
theorem refDecode_append_segmentBytes {a u : List Byte} (h : refDecode a = .ok u) (x : Nat → Byte) (n i : Nat) :
    refDecode (a ++ segmentBytes x (partitionAt x n i)) = .ok (u ++ coveredBytes x (partitionAt x n i)) := by
  obtain ⟨extra, e⟩ := refDecodeLoop_append (segmentBytes x (partitionAt x n i)) h Nat.le.refl
  obtain ⟨m, hm⟩ : ∃ m, extra + (segmentBytes x (partitionAt x n i)).length = m + 1 :=
    ⟨_, (Nat.sub_add_cancel (Nat.le_trans (segmentBytes_length_pos x _) (Nat.le_add_left _ extra))).symm⟩
  rw [refDecode, List.length_append, e, hm, refDecodeLoop_segmentBytes]

end Sys2Proof.Machine
end

section
/-! What a step can do to the engine, said once: `EngineMove` lists the ways, `step_moves` says that every step is one of them
but for the model's own fields, and the rules about jobs are derived from it. -/

namespace Sys2Proof.Machine

/-! ### States that agree -/

theorem SameEngine.refl (s : State) : SameEngine s s := ⟨rfl, rfl, rfl, rfl, rfl, rfl, rfl, rfl, rfl⟩

/-- The registers of a job and both buffers are the same; STATE and ERR may differ. -/
structure SameJob (s t : State) : Prop where
  inLen  : t.inLen = s.inLen
  outCap : t.outCap = s.outCap
  inPos  : t.inPos = s.inPos
  outLen : t.outLen = s.outLen
  inBuf  : t.inBuf = s.inBuf
  outBuf : t.outBuf = s.outBuf
  params : t.params = s.params

theorem SameEngine.sameJob {s t : State} (h : SameEngine s t) : SameJob s t := by
  obtain ⟨-, -, hl, hc, hi, ho, hib, hob, hp⟩ := h
  exact ⟨hl, hc, hi, ho, hib, hob, hp⟩

theorem SameJob.readIn_eq {s t : State} (h : SameJob s t) : readIn t = readIn s :=
  funext fun a => readIn_congr h.inBuf h.params a

theorem SameJob.readOut_eq {s t : State} (h : SameJob s t) : readOut t = readOut s :=
  funext fun a => readOut_congr h.outBuf h.params a

theorem inSlice_congr {s t : State} {a n : Nat} (h : ∀ k, k < n → readIn t (a + k) = readIn s (a + k)) :
    inSlice t a n = inSlice s a n :=
  List.map_congr_left fun k hk => h k (List.mem_range.mp hk)

theorem outSlice_congr {s t : State} {a n : Nat} (h : ∀ k, k < n → readOut t (a + k) = readOut s (a + k)) :
    outSlice t a n = outSlice s a n :=
  List.map_congr_left fun k hk => h k (List.mem_range.mp hk)

/-! ### The engine's step -/

/-- The state an EMIT step leaves (41_control_byte_writer.md R110). -/
def committed (s : State) : State :=
  { writeOutBytes s s.outLen.toNat (segmentBytes (readIn s) (jobSegment s)) with
    outLen := BitVec.ofNat 32 (s.outLen.toNat + outLength (jobSegment s).kind (jobSegment s).len)
    inPos  := BitVec.ofNat 32 (s.inPos.toNat + (jobSegment s).len) }

/-- An EMIT step of the segment the job is at commits its bytes, or faults where OUT has no room. -/
theorem commitSegment_jobSegment (s : State) :
    commitSegment s (jobSegment s).len (segmentBytes (readIn s) (jobSegment s)) =
      if s.outLen.toNat + outLength (jobSegment s).kind (jobSegment s).len ≤ s.params.outSize then .next (committed s)
      else .fault .emitOutsideOutput := by
  rw [commitSegment, segmentBytes_length]; rfl

/-- The EMIT step the dispatch selects commits the segment the job is at. -/
theorem exec_emitStep {s : State} (hb : s.phase = .busy) (hc : engineChoice s = some (emitStep (jobSegment s))) :
    exec (emitStep (jobSegment s)) s =
      commitSegment s (jobSegment s).len (segmentBytes (readIn s) (jobSegment s)) := by
  have hstart : (jobSegment s).start = s.inPos.toNat := partitionAt_start _ _ _
  revert hc hstart
  generalize jobSegment s = g
  obtain ⟨kind, start, len⟩ := g
  rintro hc rfl
  cases kind with
  | run => exact whenSelected_of_choice hb hc
  | lit => exact whenSelected_of_choice hb hc

/-- What the turn of a BUSY engine does, by the dispatch of 41_control_byte_writer.md R105. -/
theorem engineTurn_busy_cases {s : State} (hb : s.phase = .busy) :
    (s.inPos = s.inLen ∧ engineTurn s = .next { s with phase := .done }) ∨
    (s.inPos ≠ s.inLen ∧ partitionDefined s = false ∧ engineTurn s = .fault .partitionOutsideInput) ∨
    (partitionDefined s = true ∧ segmentTooLong s = true ∧
      engineTurn s = .next (enterError s .outputBufferExhausted)) ∨
    (partitionDefined s = true ∧ segmentTooLong s = false ∧
      engineTurn s = commitSegment s (jobSegment s).len (segmentBytes (readIn s) (jobSegment s))) := by
  have hturn : ∀ i, engineChoice s = some i → engineTurn s = exec i s := fun i hc => by simp [engineTurn, hb, hc]
  rcases engineChoice_cases s with ⟨hi, hc⟩ | ⟨hi, hp, hc⟩ | ⟨-, hp, ht, hc⟩ | ⟨-, hp, ht, hc⟩
  · exact .inl ⟨hi, (hturn _ hc).trans (whenSelected_of_choice hb hc)⟩
  · exact .inr (.inl ⟨hi, hp, by simp [engineTurn, hb, hc]⟩)
  · exact .inr (.inr (.inl ⟨hp, ht, (hturn _ hc).trans (whenSelected_of_choice hb hc)⟩))
  · exact .inr (.inr (.inr ⟨hp, ht, (hturn _ hc).trans (exec_emitStep hb hc)⟩))

/-- An engine step's meaning is that of the engine's turn, or it is refused. -/
theorem engineTurn_or_refused {i : Instr} {s : State} {o : Host.Outcome State Fault Refusal}
    (h : exec i s = whenSelected i s o) : exec i s = engineTurn s ∨ ∃ r, exec i s = .refused r := by
  rw [h]
  by_cases hb : s.phase = .busy
  · cases hc : engineChoice s with
    | none => exact .inl (by simp [whenSelected, engineTurn, hb, hc])
    | some j =>
      by_cases hj : j = i
      · subst hj
        exact .inl (h.symm.trans (by simp [engineTurn, hb, hc]))
      · exact .inr ⟨.engineStepNotSelected, by simp [whenSelected, hb, hc, hj]⟩
  · exact .inr ⟨.engineNotEnabled, by simp [whenSelected, hb]⟩

/-! ### The moves -/

/-- The host writes that reach a register or a buffer, and the state each leaves (42_host_commands.md R126, R127, R131,
R133). -/
inductive HostWrite (s : State) : Instr → State → Prop
  | inLen (v : Word) : HostWrite s (.hostWrInLen v) { s with inLen := v }
  | outCap (v : Word) : HostWrite s (.hostWrOutCap v) { s with outCap := v }
  | inByte (a : Word) (v : Byte) (ha : a.toNat < s.params.inSize) :
      HostWrite s (.hostWrIn a v) (writeIn s a.toNat v)
  | outByte (a : Word) (v : Byte) (ha : a.toNat < s.params.outSize) :
      HostWrite s (.hostWrOut a v) (writeOut s a.toNat v)

/-- The ways a step can change the engine, where `op` is the host operation it runs, if it runs one. -/
inductive EngineMove (op : Option Instr) (s : State) : State → Prop
  | stays : EngineMove op s s
  | begins (hb : s.phase ≠ .busy) (hfit : lengthsFit s = true) : EngineMove op s (beginJob s)
  | rejects (hb : s.phase ≠ .busy) : EngineMove op s (clearProgress (enterError s .configInvalid))
  | writes {i : Instr} {t : State} (hb : s.phase ≠ .busy) (hop : op = some i) (hw : HostWrite s i t) :
      EngineMove op s t
  | finishes (hb : s.phase = .busy) (hi : s.inPos = s.inLen) : EngineMove op s { s with phase := .done }
  | exhausts (hb : s.phase = .busy) : EngineMove op s (enterError s .outputBufferExhausted)
  | commits (hb : s.phase = .busy) (hp : partitionDefined s = true) (hfit : segmentTooLong s = false) :
      EngineMove op s (committed s)
  | resets : EngineMove op s (resetEvent s)

/-- `t` is what a move of the engine leaves, but for the model's own fields. -/
def Moves (op : Option Instr) (s t : State) : Prop := ∃ u, EngineMove op s u ∧ SameEngine u t

theorem EngineMove.moves {op : Option Instr} {s t : State} (h : EngineMove op s t) : Moves op s t :=
  ⟨t, h, SameEngine.refl t⟩

theorem SameEngine.moves {s t : State} (h : SameEngine s t) (op : Option Instr) : Moves op s t := ⟨s, .stays, h⟩

theorem startJob_moves (op : Option Instr) (s : State) : Moves op s (startJob s) := by
  rcases startJob_cases s with ⟨-, e⟩ | ⟨hb, hfit, e⟩ | ⟨hb, -, e⟩ <;> rw [e]
  · exact EngineMove.stays.moves
  · exact (EngineMove.begins hb hfit).moves
  · exact (EngineMove.rejects hb).moves

/-- A host write is dropped while BUSY, and carried out otherwise. -/
theorem HostWrite.unlessBusy_moves {i : Instr} {s t : State} (h : HostWrite s i t) :
    Moves (some i) s (unlessBusy s t) := by
  rcases unlessBusy_cases s t with ⟨-, e⟩ | ⟨hb, e⟩ <;> rw [e]
  · exact EngineMove.stays.moves
  · exact (EngineMove.writes hb rfl h).moves

theorem engineTurn_moves {s t : State} (op : Option Instr) (h : engineTurn s = .next t) : Moves op s t := by
  by_cases hb : s.phase = .busy
  · rcases engineTurn_busy_cases hb with ⟨hi, e⟩ | ⟨-, -, e⟩ | ⟨-, -, e⟩ | ⟨hp, hfit, e⟩ <;> rw [e] at h
    · exact Host.Outcome.next.inj h ▸ (EngineMove.finishes hb hi).moves
    · cases h
    · exact Host.Outcome.next.inj h ▸ (EngineMove.exhausts hb).moves
    · rw [commitSegment_jobSegment] at h
      split at h
      · exact Host.Outcome.next.inj h ▸ (EngineMove.commits hb hp hfit).moves
      · cases h
  · rw [engineTurn, if_neg hb] at h
    exact Host.Outcome.next.inj h ▸ EngineMove.stays.moves

theorem engineStep_moves {i : Instr} {s t : State} {o : Host.Outcome State Fault Refusal}
    (hi : exec i s = whenSelected i s o) (h : exec i s = .next t) : Moves (some i) s t := by
  rcases engineTurn_or_refused hi with e | ⟨r, e⟩
  · exact engineTurn_moves (some i) (e ▸ h)
  · rw [e] at h; cases h

/-- What an instruction does to the engine. -/
theorem exec_moves {i : Instr} {s t : State} (h : exec i s = .next t) : Moves (some i) s t := by
  cases i with
  | lit | rsvd | run | hostWrCtrl0 | hostRdCtrl | hostRdStatus | hostRdReg | hostWrRo =>
    obtain rfl := Host.Outcome.next.inj h
    exact SameEngine.moves (SameEngine.refl s) _
  | hostRsvd r acc =>
    cases acc <;> obtain rfl := Host.Outcome.next.inj h <;> exact SameEngine.moves (SameEngine.refl s) _
  | hostStart => exact Host.Outcome.next.inj h ▸ startJob_moves _ s
  | hostWrInLen v => exact Host.Outcome.next.inj h ▸ (HostWrite.inLen v).unlessBusy_moves
  | hostWrOutCap v => exact Host.Outcome.next.inj h ▸ (HostWrite.outCap v).unlessBusy_moves
  | hostWrIn a v =>
    obtain ⟨ha, rfl⟩ := atInAddress_next.mp h
    exact (HostWrite.inByte a v ha).unlessBusy_moves
  | hostRdIn =>
    obtain ⟨-, rfl⟩ := atInAddress_next.mp h
    exact SameEngine.moves (SameEngine.refl s) _
  | hostWrOut a v =>
    obtain ⟨ha, rfl⟩ := atOutAddress_next.mp h
    exact (HostWrite.outByte a v ha).unlessBusy_moves
  | hostRdOut =>
    obtain ⟨-, rfl⟩ := atOutAddress_next.mp h
    split <;> exact SameEngine.moves (SameEngine.refl s) _
  | finish | emitRun | emitLit | exhaust => exact engineStep_moves rfl h

/-! ### The step -/

/-- The front of a stream holds a wire-format segment, never another instruction. -/
theorem decodeSegment_ok_cases {bytes rest : List Byte} {i : Instr} (h : decodeSegment bytes = .ok (i, rest)) :
    (∃ payload, i = .lit payload) ∨ i = .rsvd ∨ ∃ count b, i = .run count b := by
  unfold decodeSegment at h
  split at h
  · cases h
  · split at h
    · split at h
      · cases h
      · cases h; exact .inl ⟨_, rfl⟩
    · split at h
      · cases h; exact .inr (.inl rfl)
      · split at h
        · cases h
        · cases h; exact .inr (.inr ⟨_, _, rfl⟩)

/-- The reference reader leaves the engine alone. -/
theorem referenceTurn_sameEngine {s t : State} (h : referenceTurn s = .next t) : SameEngine s t := by
  rcases referenceTurn_cases s with e | ⟨i, rest, hd, e⟩ | ⟨r, -, e⟩ <;> rw [e] at h
  · exact Host.Outcome.next.inj h ▸ SameEngine.refl s
  · rcases decodeSegment_ok_cases hd with ⟨_, rfl⟩ | rfl | ⟨_, _, rfl⟩ <;>
      exact Host.Outcome.next.inj h ▸ SameEngine.refl s
  · exact Host.Outcome.next.inj h ▸ SameEngine.refl s

/-- The turns to come do not bear on what a move does. -/
theorem Moves.of_turns {op : Option Instr} {s t : State} {ts : List Turn} (h : Moves op { s with turns := ts } t) :
    Moves op s t := by
  obtain ⟨u, hm, hu⟩ := h
  cases hm with
  | stays => exact ⟨s, .stays, hu⟩
  | begins hb hfit => exact ⟨_, .begins hb hfit, hu⟩
  | rejects hb => exact ⟨_, .rejects hb, hu⟩
  | writes hb hop hw =>
    cases hw with
    | inLen v => exact ⟨_, .writes hb hop (.inLen v), hu⟩
    | outCap v => exact ⟨_, .writes hb hop (.outCap v), hu⟩
    | inByte a v ha => exact ⟨_, .writes hb hop (.inByte a v ha), hu⟩
    | outByte a v ha => exact ⟨_, .writes hb hop (.outByte a v ha), hu⟩
  | finishes hb hi => exact ⟨_, .finishes hb hi, hu⟩
  | exhausts hb => exact ⟨_, .exhausts hb, hu⟩
  | commits hb hp hfit => exact ⟨_, .commits hb hp hfit, hu⟩
  | resets => exact ⟨_, .resets, hu⟩

/-- Every step is a move of the engine, of the host operation that comes next if it runs one. -/
theorem step_moves {s t : State} (h : step s = .next t) : Moves (nextHostOp s) s t := by
  cases hs : s.turns with
  | nil => exact engineTurn_moves _ (step_nil hs ▸ h)
  | cons u us =>
    have ht : takeTurn u { s with turns := us } = .next t := step_cons hs ▸ h
    refine Moves.of_turns (ts := us) ?_
    cases u with
    | host a =>
      rcases hostTurn_cases a { s with turns := us } with ⟨i, hd, e⟩ | ⟨r, -, e⟩
      · rw [nextHostOp_eq_some.mpr ⟨a, us, hs, hd⟩]
        exact exec_moves (e ▸ ht)
      · cases e.symm.trans ht
    | engine => exact engineTurn_moves _ ht
    | reference => exact (referenceTurn_sameEngine ht).moves _
    | resetLine => exact Host.Outcome.next.inj ht ▸ EngineMove.resets.moves

end Sys2Proof.Machine
end

section
/-! The invariant of the machine: it holds at power-on, every move of the engine keeps it, and under it no step faults
(10_state.md R28, R38). -/

namespace Sys2Proof.Machine

/-! ### What the invariant says -/

theorem SameEngine.machineInv {s t : State} (h : SameEngine s t) (hs : MachineInv s) : MachineInv t := by
  obtain ⟨hph, he, hl, hc, hi, ho, hib, hob, hp⟩ := h
  unfold MachineInv MemoryOk ErrMatchesState ProgressOk JobInBounds InputInBounds OutputInBounds
  rw [hph, he, hl, hc, hi, ho, hib, hob, hp]
  exact hs

theorem MachineInv.err_of_busy {s : State} (h : MachineInv s) (hb : s.phase = .busy) : s.err = .none := by
  obtain ⟨-, he, -⟩ := h
  exact he.mpr (by simp [hb])

theorem MachineInv.jobInBounds {s : State} (h : MachineInv s) (hb : s.phase = .busy) : JobInBounds s := by
  obtain ⟨-, -, -, -, -, hj⟩ := h
  exact hj hb

theorem MachineInv.jobAccepted {s : State} (h : MachineInv s) (hb : s.phase = .busy) : JobAccepted s :=
  jobAccepted_of_busy hb h.2.1

/-- A job that is not done and in bounds has a next segment. -/
theorem partitionDefined_of_inBounds {s : State} (h : JobInBounds s) (hne : s.inPos ≠ s.inLen) :
    partitionDefined s = true := by
  obtain ⟨⟨hi, hl⟩, -⟩ := h
  have hne' : s.inPos.toNat ≠ s.inLen.toNat := fun e => hne (BitVec.eq_of_toNat_eq e)
  exact partitionDefined_iff.mpr ⟨by omega, hl⟩

/-! ### The state an EMIT step leaves -/

/-- The segment fits OUT_CAP. -/
theorem le_outCap_of_fits {s : State} (h : segmentTooLong s = false) :
    s.outLen.toNat + outLength (jobSegment s).kind (jobSegment s).len ≤ s.outCap.toNat := by
  simpa [segmentTooLong] using h

/-- The segment lies in the job's input. -/
theorem jobSegment_end_le {s : State} (h : partitionDefined s = true) :
    s.inPos.toNat + (jobSegment s).len ≤ s.inLen.toNat :=
  partitionAt_end_le (partitionDefined_iff.mp h).1

theorem committed_outLen {s : State} (h : segmentTooLong s = false) :
    (committed s).outLen.toNat = s.outLen.toNat + outLength (jobSegment s).kind (jobSegment s).len := by
  have hle := le_outCap_of_fits h
  have hlt := s.outCap.isLt
  exact (BitVec.toNat_ofNat _ 32).trans (Nat.mod_eq_of_lt (by omega))

theorem committed_inPos {s : State} (h : partitionDefined s = true) :
    (committed s).inPos.toNat = s.inPos.toNat + (jobSegment s).len := by
  have hle := jobSegment_end_le h
  have hlt := s.inLen.isLt
  exact (BitVec.toNat_ofNat _ 32).trans (Nat.mod_eq_of_lt (by omega))

theorem committed_inBounds {s : State} (h : JobInBounds s) (hp : partitionDefined s = true)
    (hfit : segmentTooLong s = false) : JobInBounds (committed s) := by
  obtain ⟨⟨-, hl⟩, -, hc⟩ := h
  refine ⟨⟨?_, hl⟩, ?_, hc⟩
  · rw [committed_inPos hp]; exact jobSegment_end_le hp
  · rw [committed_outLen hfit]; exact le_outCap_of_fits hfit

/-! ### Each move keeps the invariant -/

/-- A job's bounds put its progress registers inside the buffers. -/
theorem progressOk_of_inBounds {s : State} (h : JobInBounds s) (hph : s.phase ≠ .idle) (he : s.err ≠ .configInvalid) :
    ProgressOk s :=
  ⟨h.1.1.trans h.1.2, h.2.1.trans h.2.2, fun hor => absurd hor (by simp [hph, he]), fun _ => h⟩

/-- Progress registers at 0 are in bounds, where no job runs. -/
theorem progressOk_of_zero {s : State} (hb : s.phase ≠ .busy) (hi : s.inPos = 0#32) (ho : s.outLen = 0#32) :
    ProgressOk s :=
  ⟨by simp [hi], by simp [ho], fun _ => ⟨hi, ho⟩, fun h => absurd h hb⟩

/-- Outside BUSY the bounds of the progress registers do not speak of IN_LEN, OUT_CAP, IN or OUT. -/
theorem ProgressOk.congr_not_busy {s t : State} (hb : s.phase ≠ .busy) (hph : t.phase = s.phase) (he : t.err = s.err)
    (hi : t.inPos = s.inPos) (ho : t.outLen = s.outLen) (hp : t.params = s.params) (h : ProgressOk s) :
    ProgressOk t := by
  obtain ⟨hip, hol, hz, -⟩ := h
  unfold ProgressOk
  rw [hph, he, hi, ho, hp]
  exact ⟨hip, hol, hz, fun h => absurd h hb⟩

/-- A host write leaves STATE, ERR, IN_POS, OUT_LEN and the parameters alone. -/
theorem HostWrite.frame {i : Instr} {s t : State} (h : HostWrite s i t) :
    t.phase = s.phase ∧ t.err = s.err ∧ t.inPos = s.inPos ∧ t.outLen = s.outLen ∧ t.params = s.params := by
  cases h <;> exact ⟨rfl, rfl, rfl, rfl, rfl⟩

theorem HostWrite.memoryOk {i : Instr} {s t : State} (h : HostWrite s i t) (hs : MemoryOk s) : MemoryOk t := by
  obtain ⟨hp, hin, hout⟩ := hs
  cases h with
  | inLen | outCap => exact ⟨hp, hin, hout⟩
  | inByte a v ha => exact ⟨hp, Memory.wf_write hin ha, hout⟩
  | outByte a v ha => exact ⟨hp, hin, Memory.wf_write hout ha⟩

/-- The segment's bytes are written below OUT_SIZE. -/
theorem committed_memoryOk {s : State} (hs : MemoryOk s) (hj : JobInBounds s) (hfit : segmentTooLong s = false) :
    MemoryOk (committed s) := by
  obtain ⟨hp, hin, hout⟩ := hs
  refine ⟨hp, hin, Memory.wf_writeList hout ?_⟩
  rw [segmentBytes_length]
  exact (le_outCap_of_fits hfit).trans hj.2.2

/-- The bytes a reset draws lie below OUT_SIZE. -/
theorem resetEvent_memoryOk {s : State} (hs : MemoryOk s) (ho : s.outLen.toNat ≤ s.params.outSize) :
    MemoryOk (resetEvent s) := by
  obtain ⟨hp, hin, hout⟩ := hs
  have hcut : s.outLen.toNat + cutOffCount s ≤ s.params.outSize := by unfold cutOffCount; split <;> omega
  exact ⟨hp, hin, Memory.wf_writeList hout (by rwa [drawn_length])⟩

theorem EngineMove.machineInv {op : Option Instr} {s t : State} (h : EngineMove op s t) (hs : MachineInv s) :
    MachineInv t := by
  have ⟨hm, he, hp⟩ := hs
  cases h with
  | stays => exact hs
  | begins hb hfit =>
    obtain ⟨hl, hc⟩ := lengthsFit_iff.mp hfit
    have hj : JobInBounds (beginJob s) := ⟨⟨Nat.zero_le _, hl⟩, Nat.zero_le _, hc⟩
    exact ⟨hm, by simp [ErrMatchesState], progressOk_of_inBounds hj (by simp) (by simp)⟩
  | rejects hb => exact ⟨hm, by simp [ErrMatchesState], progressOk_of_zero (by simp) rfl rfl⟩
  | writes hb hop hw =>
    obtain ⟨hph, herr, hi, ho, hpar⟩ := hw.frame
    exact ⟨hw.memoryOk hm, by rw [ErrMatchesState, hph, herr]; exact he, hp.congr_not_busy hb hph herr hi ho hpar⟩
  | finishes hb hi =>
    have hn := hs.err_of_busy hb
    have hj : JobInBounds { s with phase := .done } := hs.jobInBounds hb
    exact ⟨hm, by simp [ErrMatchesState, hn], progressOk_of_inBounds hj (by simp) (by simp [hn])⟩
  | exhausts hb =>
    have hj : JobInBounds (enterError s .outputBufferExhausted) := hs.jobInBounds hb
    exact ⟨hm, by simp [ErrMatchesState], progressOk_of_inBounds hj (by simp) (by simp)⟩
  | commits hb hd hfit =>
    have hj := hs.jobInBounds hb
    have hph : (committed s).phase ≠ .idle := by rw [show (committed s).phase = s.phase from rfl, hb]; decide
    have herr : (committed s).err ≠ .configInvalid := (hs.jobAccepted hb).2
    exact ⟨committed_memoryOk hm hj hfit, he, progressOk_of_inBounds (committed_inBounds hj hd hfit) hph herr⟩
  | resets =>
    exact ⟨resetEvent_memoryOk hm hp.2.1, by simp [ErrMatchesState], progressOk_of_zero (by simp) rfl rfl⟩

/-- Settles O55: a step is a move of the engine but for the model's own fields, and each kind of move keeps the memories
canonical, ERR in agreement with STATE and the progress registers in bounds. -/
theorem everyStepKeepsTheInvariant : Obligations.EveryStepKeepsTheInvariant := by
  intro s t hs h
  obtain ⟨u, hm, hu⟩ := step_moves h
  exact hu.machineInv (hm.machineInv hs)

/-! ### No fault -/

theorem engineTurn_not_fault {s : State} {r : Fault} (hs : MachineInv s) : engineTurn s ≠ .fault r := by
  by_cases hb : s.phase = .busy
  · have hj := hs.jobInBounds hb
    rcases engineTurn_busy_cases hb with ⟨-, e⟩ | ⟨hi, hp, e⟩ | ⟨-, -, e⟩ | ⟨-, hfit, e⟩ <;> rw [e]
    · exact nofun
    · exact absurd (partitionDefined_of_inBounds hj hi) (by simp [hp])
    · exact nofun
    · rw [commitSegment_jobSegment, if_pos ((le_outCap_of_fits hfit).trans hj.2.2)]
      exact nofun
  · rw [engineTurn, if_neg hb]
    exact nofun

theorem engineStep_not_fault {i : Instr} {s : State} {o : Host.Outcome State Fault Refusal} {r : Fault}
    (hi : exec i s = whenSelected i s o) (hs : MachineInv s) : exec i s ≠ .fault r := by
  rcases engineTurn_or_refused hi with e | ⟨q, e⟩ <;> rw [e]
  · exact engineTurn_not_fault hs
  · exact nofun

theorem exec_not_fault {i : Instr} {s : State} {r : Fault} (hs : MachineInv s) : exec i s ≠ .fault r := by
  cases i with
  | lit | rsvd | run | hostStart | hostWrCtrl0 | hostRdCtrl | hostRdStatus | hostWrInLen | hostWrOutCap | hostRdReg
  | hostWrRo => exact nofun
  | hostRsvd q acc => cases acc <;> exact nofun
  | hostWrIn | hostRdIn => exact atInAddress_not_fault
  | hostWrOut | hostRdOut => exact atOutAddress_not_fault
  | finish | emitRun | emitLit | exhaust => exact engineStep_not_fault rfl hs

theorem takeTurn_not_fault {u : Turn} {s : State} {r : Fault} (hs : MachineInv s) : takeTurn u s ≠ .fault r := by
  cases u with
  | host a =>
    rcases hostTurn_cases a s with ⟨i, -, e⟩ | ⟨q, -, e⟩ <;> rw [takeTurn, e]
    · exact exec_not_fault hs
    · exact nofun
  | engine => exact engineTurn_not_fault hs
  | reference =>
    rcases referenceTurn_cases s with e | ⟨i, rest, -, e⟩ | ⟨q, -, e⟩ <;> rw [takeTurn, e]
    · exact nofun
    · exact exec_not_fault (SameEngine.refl s |>.machineInv hs)
    · exact nofun
  | resetLine => exact nofun

/-- Settles O58: the faults stand where PARTITION is not defined or a segment passes OUT_SIZE, and the bounds of a running job
exclude both. -/
theorem noFaultUnderTheInvariant : Obligations.NoFaultUnderTheInvariant := by
  intro s r hs
  cases ht : s.turns with
  | nil => exact step_nil ht ▸ engineTurn_not_fault hs
  | cons u us => exact step_cons ht ▸ takeTurn_not_fault (SameEngine.machineInv (SameEngine.refl s) hs)

/-! ### Power-on -/

theorem Config.params_inSize : Config.params.inSize = Config.inSize := by simp [Config.params, Params.inSize]

theorem Config.params_outSize : Config.params.outSize = Config.outSize := by simp [Config.params, Params.outSize]

theorem Config.params_legal : Config.params.Legal := by
  have hi := Config.inSizeLessOne.isLt
  have ho := Config.outSizeLessTwo.isLt
  unfold Params.Legal
  rw [Config.params_inSize, Config.params_outSize, Config.inSize, Config.outSize]
  omega

/-- An address below the size reads as its power-on byte. -/
theorem powerOn_map_range (f : Nat → Byte) {a n : Nat} (h : a < n) : powerOn ((List.range n).map f) a = f a := by
  simp [powerOn, List.getD, h]

/-- Settles O53: the registers are those of State.reset, the bytes the power-on lists', and an idle engine waits. -/
theorem powerOnStateIsIdleWithOpenContents : Obligations.PowerOnStateIsIdleWithOpenContents :=
  ⟨rfl, rfl, rfl, rfl, rfl, rfl, by decide, Config.params_legal, fun _ h => powerOn_map_range _ h,
    fun _ h => powerOn_map_range _ h, rfl⟩

theorem machineInv_reset : MachineInv State.reset :=
  ⟨⟨Config.params_legal, State.reset_memory_wf⟩, by simp [ErrMatchesState, State.reset],
    progressOk_of_zero (by simp [State.reset]) rfl rfl⟩

/-- Settles O54: at power-on STATE is IDLE, outside BUSY and outside the span of R38. -/
theorem invariantHoldsAtPowerOn : Obligations.InvariantHoldsAtPowerOn :=
  have hidle : State.reset.phase = .idle := rfl
  have hnb : State.reset.phase ≠ .busy := by rw [hidle]; decide
  ⟨machineInv_reset, fun hb => absurd hb hnb, fun hb => absurd hb hnb, sinceStart_of_idle hidle, sinceStart_of_idle hidle,
    sinceStart_of_idle hidle, sinceStart_of_idle hidle⟩

end Sys2Proof.Machine
end

section
/-! The rules of a job (10_state.md R38): each is kept by every step of the span of R38, by one argument over the moves of the
engine (`JobRule.of_step`); what is particular to a rule is that START establishes it, that the commit of a segment keeps it,
and which host writes it does not speak of. -/

namespace Sys2Proof.Machine

/-- A rule about a job's registers and buffers that a START establishes and the commit of a segment keeps. -/
structure JobRule (P : State → Prop) : Prop where
  congr   : ∀ {s t : State}, SameJob s t → P s → P t
  begins  : ∀ s : State, lengthsFit s = true → P (beginJob s)
  commits : ∀ s : State, JobInBounds s → partitionDefined s = true → segmentTooLong s = false → P s → P (committed s)

section
variable {P : State → Prop} {op : Option Instr} {s t : State}

/-- Outside BUSY, the host write `op`, if it is one, keeps the rule. -/
def WriteKeeps (P : State → Prop) (op : Option Instr) (s : State) : Prop :=
  s.phase ≠ .busy → ∀ i u, op = some i → HostWrite s i u → P s → P u

theorem writeKeeps_of_busy (hb : s.phase = .busy) : WriteKeeps P op s := fun hnb => absurd hb hnb

/-- A move keeps a rule of a job over the span of R38. -/
theorem JobRule.of_move (hP : JobRule P) (hs : MachineInv s) (h : EngineMove op s t) (hw : WriteKeeps P op s)
    (hr : SinceStart P s) : SinceStart P t := by
  cases h with
  | stays => exact hr
  | begins hb hfit => exact fun _ => hP.begins s hfit
  | rejects hb => exact sinceStart_of_configInvalid rfl
  | writes hb hop hwr =>
    obtain ⟨hph, he, -⟩ := hwr.frame
    rintro ⟨hi, hc⟩
    exact hw hb _ _ hop hwr (hr ⟨hph ▸ hi, he ▸ hc⟩)
  | finishes hb hi => exact fun _ => hP.congr (s := s) ⟨rfl, rfl, rfl, rfl, rfl, rfl, rfl⟩ (hr (hs.jobAccepted hb))
  | exhausts hb => exact fun _ => hP.congr (s := s) ⟨rfl, rfl, rfl, rfl, rfl, rfl, rfl⟩ (hr (hs.jobAccepted hb))
  | commits hb hp hfit => exact fun _ => hP.commits s (hs.jobInBounds hb) hp hfit (hr (hs.jobAccepted hb))
  | resets => exact sinceStart_of_idle rfl

theorem SameEngine.jobAccepted (h : SameEngine s t) (ht : JobAccepted t) : JobAccepted s := by
  obtain ⟨hph, he, -⟩ := h
  exact ⟨hph ▸ ht.1, he ▸ ht.2⟩

/-- A step keeps a rule of a job over the span of R38, but for a host write outside BUSY. -/
theorem JobRule.of_step (hP : JobRule P) (hs : MachineInv s) (h : step s = .next t) (hw : WriteKeeps P (nextHostOp s) s)
    (hr : SinceStart P s) : SinceStart P t := by
  obtain ⟨u, hm, hu⟩ := step_moves h
  exact fun ht => hP.congr hu.sameJob (hP.of_move hs hm hw hr (hu.jobAccepted ht))

/-- A BUSY engine's step does not report CONFIG_INVALID. -/
theorem err_of_busy_step (hs : MachineInv s) (hb : s.phase = .busy) (h : step s = .next t) :
    t.err ≠ .configInvalid := by
  obtain ⟨u, hm, hu⟩ := step_moves h
  obtain ⟨-, he, -⟩ := hu
  rw [he]
  have hn := hs.err_of_busy hb
  cases hm with
  | stays | finishes | commits => exact hn ▸ nofun
  | begins hnb | rejects hnb | writes hnb => exact absurd hb hnb
  | exhausts | resets => exact nofun

/-- An engine becomes BUSY by an accepted START alone. -/
theorem begins_of_busy (h : step s = .next t) (hnb : s.phase ≠ .busy) (hb : t.phase = .busy) :
    lengthsFit s = true ∧ SameEngine (beginJob s) t := by
  obtain ⟨u, hm, hu⟩ := step_moves h
  have hub : u.phase = .busy := by
    obtain ⟨hph, -⟩ := hu
    exact hph ▸ hb
  cases hm with
  | stays => exact absurd hub hnb
  | begins _ hfit => exact ⟨hfit, hu⟩
  | rejects => cases hub
  | writes _ _ hwr =>
    obtain ⟨hph, -⟩ := hwr.frame
    exact absurd (hph ▸ hub) hnb
  | finishes hb' | exhausts hb' | commits hb' => exact absurd hb' hnb
  | resets => cases hub

/-- A rule of a running job holds after every step whose engine is BUSY, and after the step that ends the job. -/
theorem JobRule.of_busy_step (hP : JobRule P) (hs : MachineInv s) (hr : s.phase = .busy → P s) (h : step s = .next t) :
    (t.phase = .busy → P t) ∧ (s.phase = .busy → t.phase ≠ .idle → P t) := by
  have hend : s.phase = .busy → t.phase ≠ .idle → P t := fun hb hni =>
    hP.of_step hs h (writeKeeps_of_busy hb) (fun _ => hr hb) ⟨hni, err_of_busy_step hs hb h⟩
  refine ⟨fun hb => ?_, hend⟩
  by_cases hsb : s.phase = .busy
  · exact hend hsb (by simp [hb])
  · obtain ⟨hfit, hu⟩ := begins_of_busy h hsb hb
    exact hP.congr hu.sameJob (hP.begins s hfit)

end

/-! ### The registers' bounds -/

/-- (a) of R38. -/
theorem jobRule_inputInBounds : JobRule InputInBounds where
  congr h hs := by unfold InputInBounds; rw [h.inPos, h.inLen, h.params]; exact hs
  begins s hfit := ⟨Nat.zero_le _, (lengthsFit_iff.mp hfit).1⟩
  commits s hj hp hfit _ := (committed_inBounds hj hp hfit).1

/-- (b) of R38. -/
theorem jobRule_outputInBounds : JobRule OutputInBounds where
  congr h hs := by unfold OutputInBounds; rw [h.outLen, h.outCap, h.params]; exact hs
  begins s hfit := ⟨Nat.zero_le _, (lengthsFit_iff.mp hfit).2⟩
  commits s hj hp hfit _ := (committed_inBounds hj hp hfit).2

/-! ### What a commit leaves in OUT, and what it has covered of IN -/

theorem inSlice_add (s : State) (a m n : Nat) : inSlice s a (m + n) = inSlice s a m ++ inSlice s (a + m) n := by
  simp [inSlice, List.range_add, Nat.add_assoc]

theorem outSlice_add (s : State) (a m n : Nat) : outSlice s a (m + n) = outSlice s a m ++ outSlice s (a + m) n := by
  simp [outSlice, List.range_add, Nat.add_assoc]

/-- Bytes stored in OUT read back. -/
theorem outSlice_writeOutBytes_same (s : State) (a : Nat) (vs : List Byte) :
    outSlice (writeOutBytes s a vs) a vs.length = vs := by
  refine List.ext_getElem (outSlice_length _ _ _) fun k _ hk => ?_
  simp [outSlice, readOut_writeOutBytes, hk]

/-- A store from `a` on leaves the bytes below `a`. -/
theorem outSlice_writeOutBytes_below (s : State) (a : Nat) (vs : List Byte) :
    outSlice (writeOutBytes s a vs) 0 a = outSlice s 0 a :=
  outSlice_congr fun k hk => by
    rw [readOut_writeOutBytes, if_neg (by omega)]

@[simp] theorem readIn_committed (s : State) : readIn (committed s) = readIn s := rfl

@[simp] theorem committed_inLen (s : State) : (committed s).inLen = s.inLen := rfl

/-- OUT up to the new OUT_LEN is what was there up to the old one, and the segment's bytes. -/
theorem outSlice_committed {s : State} (hfit : segmentTooLong s = false) :
    outSlice (committed s) 0 (committed s).outLen.toNat =
      outSlice s 0 s.outLen.toNat ++ segmentBytes (readIn s) (jobSegment s) := by
  rw [committed_outLen hfit, ← segmentBytes_length (readIn s), outSlice_add, Nat.zero_add]
  exact congrArg₂ (· ++ ·) (outSlice_writeOutBytes_below s _ _) (outSlice_writeOutBytes_same s _ _)

/-- IN up to the new IN_POS is what was covered before, and the bytes the segment covers. -/
theorem inSlice_committed {s : State} (hp : partitionDefined s = true) :
    inSlice (committed s) 0 (committed s).inPos.toNat =
      inSlice s 0 s.inPos.toNat ++ coveredBytes (readIn s) (jobSegment s) := by
  have hstart : (jobSegment s).start = s.inPos.toNat := partitionAt_start _ _ _
  rw [committed_inPos hp, inSlice_add, Nat.zero_add, coveredBytes, hstart]
  rfl

/-! ### What is written and what is covered -/

theorem SameJob.outSlice_eq {s t : State} (h : SameJob s t) (a n : Nat) : outSlice t a n = outSlice s a n := by
  rw [outSlice, outSlice, h.readOut_eq]

theorem SameJob.inSlice_eq {s t : State} (h : SameJob s t) (a n : Nat) : inSlice t a n = inSlice s a n := by
  rw [inSlice, inSlice, h.readIn_eq]

theorem SameJob.jobPartition_eq {s t : State} (h : SameJob s t) : jobPartition t = jobPartition s := by
  rw [jobPartition, jobPartition, h.readIn_eq, h.inLen]

theorem SameJob.jobEncoding_eq {s t : State} (h : SameJob s t) : jobEncoding t = jobEncoding s := by
  rw [jobEncoding, jobEncoding, h.readIn_eq, h.inLen]

/-- (c) of R38: the segment added decodes to the bytes it covers. -/
theorem jobRule_writtenDecodes : JobRule WrittenDecodes where
  congr h hs := by
    unfold WrittenDecodes
    rw [h.outSlice_eq, h.inSlice_eq, h.outLen, h.inPos]; exact hs
  begins s _ := writtenDecodes_of_zero rfl rfl
  commits s _ hp hfit hs := by
    unfold WrittenDecodes
    rw [outSlice_committed hfit, inSlice_committed hp]
    exact refDecode_append_segmentBytes hs (readIn s) s.inLen.toNat s.inPos.toNat

/-- (d) of R38: the segment added is the next of the partition. -/
theorem jobRule_writtenIsWholeSegments : JobRule WrittenIsWholeSegments where
  congr h hs := by
    unfold WrittenIsWholeSegments
    rw [h.outSlice_eq, h.jobPartition_eq, h.readIn_eq, h.outLen, h.inPos]; exact hs
  begins s _ := writtenIsWholeSegments_of_zero rfl rfl
  commits s _ hp hfit hs := by
    obtain ⟨k, hk, ho, hi⟩ := hs
    obtain ⟨hk', htake⟩ := take_succ_partition hk hi (partitionDefined_iff.mp hp).1
    have htake' : (jobPartition (committed s)).take (k + 1) = (jobPartition s).take k ++ [jobSegment s] := htake
    refine ⟨k + 1, hk', ?_, ?_⟩
    · rw [outSlice_committed hfit, htake', ho]; simp
    · rw [committed_inPos hp, htake', hi]; simp

/-- (d) of R38: the segment added begins the encoding of the rest. -/
theorem jobRule_writtenBeginsEncoding : JobRule WrittenBeginsEncoding where
  congr h hs := by
    unfold WrittenBeginsEncoding
    rw [h.outSlice_eq, h.jobEncoding_eq, h.readIn_eq, h.outLen, h.inPos, h.inLen]; exact hs
  begins s _ := encodeFrom_zero (readIn s) s.inLen.toNat
  commits s _ hp hfit hs := by
    have henc : jobEncoding (committed s) = jobEncoding s := rfl
    have hrest := encodeFrom_of_lt (x := readIn s) (partitionDefined_iff.mp hp).1
    unfold WrittenBeginsEncoding
    rw [outSlice_committed hfit, committed_inPos hp, readIn_committed, committed_inLen, List.append_assoc, henc, ← hs, hrest]
    rfl

/-- Settles O56: what is written and covered changes by whole segments alone, each decoding to the bytes it covers. -/
theorem everyStepKeepsWrittenPartDecodable : Obligations.EveryStepKeepsWrittenPartDecodable :=
  fun _ _ hs hd h => jobRule_writtenDecodes.of_busy_step hs hd h

/-- A BUSY engine's step ends in DONE only where the input is covered, and leaves the job's registers and buffers. -/
theorem finishes_of_done {s t : State} (h : step s = .next t) (hb : s.phase = .busy) (hd : t.phase = .done) :
    s.inPos = s.inLen ∧ SameJob s t := by
  obtain ⟨u, hm, hu⟩ := step_moves h
  have hud : u.phase = .done := by
    obtain ⟨hph, -⟩ := hu
    exact hph ▸ hd
  cases hm with
  | stays | commits => exact absurd (hb.symm.trans hud) nofun
  | begins hnb | rejects hnb | writes hnb => exact absurd hb hnb
  | finishes _ hi =>
    have ⟨hl, hc, hip, hol, hib, hob, hp⟩ := hu.sameJob
    exact ⟨hi, hl, hc, hip, hol, hib, hob, hp⟩
  | exhausts | resets => cases hud

/-- Settles O57: a commit moves the first segment of the rest's encoding to the output, and FINISH comes where no input is
left. -/
theorem everyStepKeepsWrittenPartOfEncoding : Obligations.EveryStepKeepsWrittenPartOfEncoding := by
  intro s t hs he h
  obtain ⟨hbusy, hend⟩ := jobRule_writtenBeginsEncoding.of_busy_step hs he h
  refine ⟨hbusy, hend, fun hb hd => ?_⟩
  obtain ⟨hi, hsame⟩ := finishes_of_done h hb hd
  have hall : outSlice s 0 s.outLen.toNat ++ encodeFrom (readIn s) s.inLen.toNat s.inPos.toNat = jobEncoding s := he hb
  rw [hi, encodeFrom_end, List.append_nil] at hall
  exact ⟨by rw [hsame.outSlice_eq, hsame.outLen, hall], by rw [hsame.inPos, hi]⟩

/-! ### The host writes a rule does not speak of -/

section
variable {s t : State} {i : Instr}

theorem HostWrite.inLen_eq (h : HostWrite s i t) (hi : ∀ v, i ≠ .hostWrInLen v) : t.inLen = s.inLen := by
  cases h with
  | inLen v => exact absurd rfl (hi v)
  | outCap | inByte | outByte => rfl

theorem HostWrite.outCap_eq (h : HostWrite s i t) (hi : ∀ v, i ≠ .hostWrOutCap v) : t.outCap = s.outCap := by
  cases h with
  | outCap v => exact absurd rfl (hi v)
  | inLen | inByte | outByte => rfl

/-- Bytes of IN below those the host writes stay. -/
theorem HostWrite.readIn_below {n : Nat} (h : HostWrite s i t) (hi : ∀ a v, i = .hostWrIn a v → n ≤ a.toNat) :
    ∀ j, j < n → readIn t j = readIn s j := by
  intro j hj
  cases h with
  | inByte a v => exact readIn_writeIn_other s v (Nat.ne_of_lt (Nat.lt_of_lt_of_le hj (hi a v rfl)))
  | inLen | outCap | outByte => rfl

/-- Bytes of OUT below those the host writes stay. -/
theorem HostWrite.outSlice_below {n : Nat} (h : HostWrite s i t) (hi : ∀ a v, i = .hostWrOut a v → n ≤ a.toNat) :
    outSlice t 0 n = outSlice s 0 n := by
  refine outSlice_congr fun k hk => ?_
  cases h with
  | outByte a v => exact readOut_writeOut_other s v (Nat.ne_of_lt (Nat.lt_of_lt_of_le (by omega) (hi a v rfl)))
  | inLen | outCap | inByte => rfl

theorem inputInBounds_of_write (h : HostWrite s i t) (hi : ∀ v, i ≠ .hostWrInLen v) (hs : InputInBounds s) :
    InputInBounds t := by
  obtain ⟨-, -, hip, -, hp⟩ := h.frame
  unfold InputInBounds
  rw [hip, h.inLen_eq hi, hp]
  exact hs

theorem outputInBounds_of_write (h : HostWrite s i t) (hi : ∀ v, i ≠ .hostWrOutCap v) (hs : OutputInBounds s) :
    OutputInBounds t := by
  obtain ⟨-, -, -, hol, hp⟩ := h.frame
  unfold OutputInBounds
  rw [hol, h.outCap_eq hi, hp]
  exact hs

theorem writtenDecodes_of_write (h : HostWrite s i t) (hin : ∀ a v, i = .hostWrIn a v → s.inPos.toNat ≤ a.toNat)
    (hout : ∀ a v, i = .hostWrOut a v → s.outLen.toNat ≤ a.toNat) (hs : WrittenDecodes s) : WrittenDecodes t := by
  obtain ⟨-, -, hip, hol, -⟩ := h.frame
  have hslice : inSlice t 0 s.inPos.toNat = inSlice s 0 s.inPos.toNat :=
    inSlice_congr fun k hk => h.readIn_below hin _ (by omega)
  unfold WrittenDecodes
  rw [hip, hol, h.outSlice_below hout, hslice]
  exact hs

/-- The bytes of a partition's segments are those of the input the partition is of. -/
theorem writtenIsWholeSegments_of_write (h : HostWrite s i t) (hlen : ∀ v, i ≠ .hostWrInLen v)
    (hin : ∀ a v, i = .hostWrIn a v → s.inLen.toNat ≤ a.toNat)
    (hout : ∀ a v, i = .hostWrOut a v → s.outLen.toNat ≤ a.toNat) (hs : WrittenIsWholeSegments s) :
    WrittenIsWholeSegments t := by
  obtain ⟨k, hk, ho, hi⟩ := hs
  obtain ⟨-, -, hip, hol, -⟩ := h.frame
  have hagree := h.readIn_below hin
  have hpart : jobPartition t = jobPartition s := by
    rw [jobPartition, jobPartition, h.inLen_eq hlen, partition_congr hagree]
  have hbytes : ((jobPartition s).take k).flatMap (segmentBytes (readIn s)) =
      ((jobPartition s).take k).flatMap (segmentBytes (readIn t)) :=
    flatMap_segmentBytes_congr (fun j hj => (hagree j hj).symm) fun _ hg => List.mem_of_mem_take hg
  refine ⟨k, hpart ▸ hk, ?_, ?_⟩
  · rw [hol, hpart, h.outSlice_below hout, ho, hbytes]
  · rw [hip, hpart, hi]

theorem writtenBeginsEncoding_of_write (h : HostWrite s i t) (hlen : ∀ v, i ≠ .hostWrInLen v)
    (hin : ∀ a v, i = .hostWrIn a v → s.inLen.toNat ≤ a.toNat)
    (hout : ∀ a v, i = .hostWrOut a v → s.outLen.toNat ≤ a.toNat) (hs : WrittenBeginsEncoding s) :
    WrittenBeginsEncoding t := by
  obtain ⟨-, -, hip, hol, -⟩ := h.frame
  have hagree := h.readIn_below hin
  unfold WrittenBeginsEncoding jobEncoding
  rw [hip, hol, h.inLen_eq hlen, h.outSlice_below hout, encodeFrom_congr hagree, encodeInput_congr hagree]
  exact hs

end

/-- Settles O60: a step keeps each rule by `JobRule.of_step`, once the host writes outside BUSY that are left are those of what
the rule does not speak of. -/
theorem jobRulesStandUntilHostRewrites : Obligations.JobRulesStandUntilHostRewrites := by
  intro s t hs h
  refine ⟨fun hr hw => jobRule_inputInBounds.of_step hs h ?_ hr, fun hr hw => jobRule_outputInBounds.of_step hs h ?_ hr,
    fun hr hw => jobRule_writtenDecodes.of_step hs h ?_ hr, fun hr hr' hw =>
      ⟨jobRule_writtenIsWholeSegments.of_step hs h ?_ hr, jobRule_writtenBeginsEncoding.of_step hs h ?_ hr'⟩⟩
  all_goals
    intro hnb i u hop hwr hP
    have hw := hw.resolve_left hnb
    simp only [hop, Option.some.injEq, ne_eq] at hw
  · exact inputInBounds_of_write hwr hw hP
  · exact outputInBounds_of_write hwr hw hP
  · obtain ⟨hin, hout⟩ := hw
    exact writtenDecodes_of_write hwr hin hout hP
  · obtain ⟨hlen, hin, hout⟩ := hw
    exact writtenIsWholeSegments_of_write hwr hlen hin hout hP
  · obtain ⟨hlen, hin, hout⟩ := hw
    exact writtenBeginsEncoding_of_write hwr hlen hin hout hP

end Sys2Proof.Machine
end

section
/-! Which instructions can change each part of the state: the fields an instruction's next state shares with the state it ran
in, instruction by instruction (10_state.md R31, R32, R36). -/

namespace Sys2Proof.Machine

/-- Settles O29: each instruction's next state is an update of the few fields named for it, and a dropped or ignored one is
the state itself. -/
theorem onlyNamedInstructionsWriteEachPart : Obligations.OnlyNamedInstructionsWriteEachPart := by
  intro i s t h
  cases i with
  | lit | rsvd | run | hostWrCtrl0 | hostRdCtrl | hostRdStatus | hostRdReg | hostWrRo =>
    obtain rfl := Host.Outcome.next.inj h
    simp
  | hostRsvd r acc => cases acc <;> obtain rfl := Host.Outcome.next.inj h <;> simp
  | hostStart =>
    obtain rfl := Host.Outcome.next.inj h
    rcases startJob_cases s with ⟨-, e⟩ | ⟨-, -, e⟩ | ⟨-, -, e⟩ <;> simp [e]
  | hostWrInLen v =>
    obtain rfl := Host.Outcome.next.inj h
    rcases unlessBusy_cases s { s with inLen := v } with ⟨-, e⟩ | ⟨-, e⟩ <;> simp [e]
  | hostWrOutCap v =>
    obtain rfl := Host.Outcome.next.inj h
    rcases unlessBusy_cases s { s with outCap := v } with ⟨-, e⟩ | ⟨-, e⟩ <;> simp [e]
  | hostWrIn a v =>
    obtain ⟨-, rfl⟩ := atInAddress_next.mp h
    rcases unlessBusy_cases s (writeIn s a.toNat v) with ⟨-, e⟩ | ⟨-, e⟩ <;> simp [e]
  | hostRdIn =>
    obtain ⟨-, rfl⟩ := atInAddress_next.mp h
    simp
  | hostWrOut a v =>
    obtain ⟨-, rfl⟩ := atOutAddress_next.mp h
    rcases unlessBusy_cases s (writeOut s a.toNat v) with ⟨-, e⟩ | ⟨-, e⟩ <;> simp [e]
  | hostRdOut =>
    obtain ⟨-, rfl⟩ := atOutAddress_next.mp h
    split <;> simp
  | finish | exhaust =>
    obtain ⟨-, -, ho⟩ := whenSelected_next.mp h
    obtain rfl := Host.Outcome.next.inj ho
    simp
  | emitRun | emitLit =>
    obtain ⟨-, -, ho⟩ := whenSelected_next.mp h
    obtain ⟨-, rfl⟩ := commitSegment_next.mp ho
    simp

end Sys2Proof.Machine
end

section
/-! Which accesses are host operations (20_memory.md R47), and the instruction each turn of a step runs (R57). -/

namespace Sys2Proof.Machine

/-- A register access is an operation where it is a whole word of the window. -/
theorem decodeAccess_reg_ok_iff {addr data : Word} {width : Nat} {dir : Dir} :
    (∃ i, decodeAccess ⟨.reg, addr, width, dir, data⟩ = .ok i) ↔
      width = 32 ∧ addr.toNat % 4 = 0 ∧ addr.toNat < 0x20 := by
  have hwindow := regAt_isSome (addr.toNat / 4)
  constructor
  · rintro ⟨i, h⟩
    by_cases hw : width = 32
    · by_cases hm : addr.toNat % 4 = 0
      · cases hr : regAt (addr.toNat / 4) with
        | none => simp [decodeAccess, hw, hm, hr] at h
        | some r =>
          simp [hr] at hwindow
          exact ⟨hw, hm, by omega⟩
      · simp [decodeAccess, hw, hm] at h
    · simp [decodeAccess, hw] at h
  · rintro ⟨rfl, hm, hlt⟩
    obtain ⟨r, hr⟩ : ∃ r, regAt (addr.toNat / 4) = some r :=
      Option.isSome_iff_exists.mp (hwindow.trans (decide_eq_true (by omega)))
    cases dir with
    | read => exact ⟨_, decodeAccess_regRead hm hr⟩
    | write => exact ⟨_, decodeAccess_regWrite hm hr⟩

/-- A buffer access is an operation where it is one byte wide, at any address. -/
theorem decodeAccess_buffer_ok_iff {a : HostAccess} (hs : a.space ≠ .reg) :
    (∃ i, decodeAccess a = .ok i) ↔ a.width = 8 := by
  obtain ⟨space, addr, width, dir, data⟩ := a
  cases space with
  | reg => exact absurd rfl hs
  | inBuf | outBuf =>
    by_cases hw : width = 8
    · cases dir <;> simp [decodeAccess, hw]
    · simp [decodeAccess, hw]

/-- Settles O6: the accepted shapes space by space, and a turn whose access decodes to nothing is refused. -/
theorem otherAccessesAreRefused : Obligations.OtherAccessesAreRefused := by
  intro a s
  refine ⟨?_, fun hnone => ?_⟩
  · by_cases hs : a.space = .reg
    · obtain ⟨space, addr, width, dir, data⟩ := a
      obtain rfl : space = .reg := hs
      simpa using decodeAccess_reg_ok_iff
    · simpa [hs] using decodeAccess_buffer_ok_iff hs
  · rcases hostTurn_cases a s with ⟨i, hd, -⟩ | ⟨r, -, h⟩
    · exact absurd ⟨i, hd⟩ hnone
    · exact ⟨r, h⟩

theorem engineTurn_of_choice {s : State} {i : Instr} (hb : s.phase = .busy) (hc : engineChoice s = some i) :
    engineTurn s = exec i s := by simp [engineTurn, hb, hc]

theorem engineTurn_of_not_busy {s : State} (hb : s.phase ≠ .busy) : engineTurn s = .next s := if_neg hb

/-- Settles O12: the step hands its first turn to `takeTurn`, and the list of turns does not bear on what a turn decodes or
selects. -/
theorem stepRunsDecodedInstruction : Obligations.StepRunsDecodedInstruction := by
  refine ⟨fun s a ts i hs hd => ?_, fun s ts i rest hs he hd => ?_, fun s ts i hs hb hc => ?_, fun s ts hs hb => ?_,
    fun s i hs hb hc => ?_, fun s hs hb => ?_⟩
  · rw [step_cons hs]
    simp [takeTurn, hostTurn, hd]
  · rw [step_cons hs]
    simp [takeTurn, referenceTurn, he, hd]
  · rw [step_cons hs]
    exact engineTurn_of_choice hb hc
  · rw [step_cons hs]
    exact engineTurn_of_not_busy hb
  · rw [step_nil hs]
    exact engineTurn_of_choice hb hc
  · rw [step_nil hs]
    exact engineTurn_of_not_busy hb

end Sys2Proof.Machine
end

section
/-! A memory's canonical form is the only one with its contents (20_memory.md R55; log 5). -/

namespace Sys2Proof.Machine

variable {d : Nat → Byte} {size : Nat} {m : List Host.Cell}

/-- An address below every entry is unlisted. -/
theorem Memory.read_of_below {a : Nat} (h : ∀ e ∈ m, a < e.1) : Memory.read d m a = d a := by
  induction m with
  | nil => rfl
  | cons c m ih =>
    obtain ⟨hc, hm⟩ := List.forall_mem_cons.mp h
    rw [Memory.read, if_neg (Nat.ne_of_gt hc), ih hm]

theorem Memory.read_cons_same (d : Nat → Byte) (c : Host.Cell) (m : List Host.Cell) :
    Memory.read d (c :: m) c.1 = c.2 := if_pos rfl

theorem Memory.read_cons_other {c : Host.Cell} {a : Nat} (h : c.1 ≠ a) :
    Memory.read d (c :: m) a = Memory.read d m a := if_neg h

/-- The first entry of a canonical memory shows in a read, so another memory that reads alike has an entry at or below it. -/
theorem Memory.not_below_of_read_eq {c : Host.Cell} {n : List Host.Cell} (hc : c.2 ≠ d c.1)
    (h : ∀ a, Memory.read d (c :: m) a = Memory.read d n a) : ¬ ∀ e ∈ n, c.1 < e.1 := by
  intro hlt
  have hread := h c.1
  rw [Memory.read_cons_same, Memory.read_of_below hlt] at hread
  exact hc hread

/-- An entry at or below an address of a canonical memory comes no earlier than its first entry. -/
theorem Memory.head_le_of_not_below {e : Host.Cell} {n : List Host.Cell} {a : Nat} (hn : ∀ x ∈ n, e.1 < x.1)
    (h : ¬ ∀ x ∈ e :: n, a < x.1) : e.1 ≤ a := by
  by_contra hlt
  refine h (List.forall_mem_cons.mpr ⟨by omega, fun x hx => ?_⟩)
  have hx' := hn x hx
  omega

/-- Memories that read alike and begin with the same entry read alike without it. -/
theorem Memory.read_tails_eq {c : Host.Cell} {n : List Host.Cell} (hm : ∀ e ∈ m, c.1 < e.1) (hn : ∀ e ∈ n, c.1 < e.1)
    (h : ∀ a, Memory.read d (c :: m) a = Memory.read d (c :: n) a) (a : Nat) :
    Memory.read d m a = Memory.read d n a := by
  by_cases ha : c.1 = a
  · subst ha
    rw [Memory.read_of_below hm, Memory.read_of_below hn]
  · have hread := h a
    rwa [Memory.read_cons_other ha, Memory.read_cons_other ha] at hread

/-- Settles O31: the first entries of two canonical memories that read alike stand at the same address, with the same byte, and
the rest read alike again. -/
theorem canonicalMemoriesReadAlikeAreEqual : Obligations.CanonicalMemoriesReadAlikeAreEqual := by
  intro d size m n hm hn h
  induction m generalizing n with
  | nil =>
    cases n with
    | nil => rfl
    | cons e n =>
      obtain ⟨-, he, -, -⟩ := Memory.wf_cons.mp hn
      exact absurd nofun (Memory.not_below_of_read_eq he fun a => (h a).symm)
  | cons c m ih =>
    obtain ⟨-, hc, hcm, hwm⟩ := Memory.wf_cons.mp hm
    have hlow := Memory.not_below_of_read_eq hc h
    cases n with
    | nil => exact absurd nofun hlow
    | cons e n =>
      obtain ⟨-, he, hen, hwn⟩ := Memory.wf_cons.mp hn
      have hlow' := Memory.not_below_of_read_eq he fun a => (h a).symm
      have haddr : c.1 = e.1 :=
        Nat.le_antisymm (Memory.head_le_of_not_below hcm hlow') (Memory.head_le_of_not_below hen hlow)
      have hbyte : c.2 = e.2 := by
        have hread := h c.1
        rwa [Memory.read_cons_same, haddr, Memory.read_cons_same] at hread
      obtain rfl : c = e := Prod.ext haddr hbyte
      rw [ih n hwm hwn (Memory.read_tails_eq hcm hen h)]

end Sys2Proof.Machine
end

section
/-! What host reads and engine steps leave unchanged in the buffers, and what an engine step depends on (20_memory.md R49 to
R52, R61). -/

namespace Sys2Proof.Machine

/-- Settles O27: a read changes what the host read and, for OUT while BUSY, the count of draws; neither bears on a
read that draws nothing. -/
theorem readsHaveNoSideEffect : Obligations.ReadsHaveNoSideEffect := by
  intro i s t hread h
  cases i with
  | hostRdCtrl | hostRdStatus =>
    obtain rfl := Host.Outcome.next.inj h
    exact ⟨SameEngine.refl s, rfl, fun _ => ⟨_, rfl, rfl⟩⟩
  | hostRdReg r =>
    obtain rfl := Host.Outcome.next.inj h
    exact ⟨SameEngine.refl s, rfl, fun _ => ⟨_, rfl, by cases r <;> rfl⟩⟩
  | hostRsvd r acc =>
    cases acc with
    | read =>
      obtain rfl := Host.Outcome.next.inj h
      exact ⟨SameEngine.refl s, rfl, fun _ => ⟨_, rfl, rfl⟩⟩
    | write => simp at hread
  | hostRdIn a =>
    obtain ⟨ha, rfl⟩ := atInAddress_next.mp h
    exact ⟨SameEngine.refl s, rfl, fun _ => ⟨_, atInAddress_next.mpr ⟨ha, rfl⟩, rfl⟩⟩
  | hostRdOut a =>
    obtain ⟨ha, rfl⟩ := atOutAddress_next.mp h
    by_cases hb : s.phase = .busy
    · rw [if_pos hb]
      exact ⟨SameEngine.refl s, rfl, fun hex => absurd rfl (hex.resolve_left (not_not.mpr hb) a)⟩
    · rw [if_neg hb]
      exact ⟨SameEngine.refl s, rfl, fun _ => ⟨_, atOutAddress_next.mpr ⟨ha, if_neg hb⟩, rfl⟩⟩
  | lit | rsvd | run | hostStart | hostWrCtrl0 | hostWrInLen | hostWrOutCap | hostWrRo | hostWrIn | hostWrOut | finish
  | emitRun | emitLit | exhaust => simp at hread

/-! ### While a job runs -/

/-- No move of a BUSY engine changes IN or its power-on contents. -/
theorem EngineMove.inBuf_of_busy {op : Option Instr} {s t : State} (h : EngineMove op s t) (hb : s.phase = .busy) :
    t.inBuf = s.inBuf ∧ t.params = s.params := by
  cases h with
  | stays | finishes | exhausts | commits => exact ⟨rfl, rfl⟩
  | resets => exact ⟨resetEvent_inBuf s, resetEvent_params s⟩
  | begins hnb | rejects hnb | writes hnb => exact absurd hb hnb

/-- A move that leaves a BUSY engine BUSY is no reset, and keeps the job's lengths. -/
theorem EngineMove.lengths_of_busy {op : Option Instr} {s t : State} (h : EngineMove op s t) (hb : s.phase = .busy)
    (ht : t.phase = .busy) : t.inLen = s.inLen ∧ t.outCap = s.outCap := by
  cases h with
  | stays | finishes | exhausts | commits => exact ⟨rfl, rfl⟩
  | resets => exact absurd ht (by simp)
  | begins hnb | rejects hnb | writes hnb => exact absurd hb hnb

/-- Settles O30: a step is a move of the engine, and no move of a BUSY engine writes IN or, but for a reset, the
job's lengths. -/
theorem inputIsFixedDuringJob : Obligations.InputIsFixedDuringJob := by
  intro s t hb h
  obtain ⟨u, hm, hu⟩ := step_moves h
  obtain ⟨hin, hp⟩ := hm.inBuf_of_busy hb
  obtain ⟨hph, -, hl, hc, -, -, hib, -, hpar⟩ := hu
  refine ⟨readIn_congr (hib.trans hin) (hpar.trans hp), fun ht => ?_⟩
  obtain ⟨hlu, hcu⟩ := hm.lengths_of_busy hb (hph ▸ ht)
  exact ⟨hl.trans hlu, hc.trans hcu⟩

/-! ### An engine step -/

/-- OUT after an EMIT step: the segment's bytes from OUT_LEN on, and the rest as it was. -/
theorem readOut_committed (s : State) (a : Nat) :
    readOut (committed s) a =
      if s.outLen.toNat ≤ a ∧ a < s.outLen.toNat + outLength (jobSegment s).kind (jobSegment s).len then
        (segmentBytes (readIn s) (jobSegment s)).getD (a - s.outLen.toNat) 0#8
      else readOut s a := by
  rw [← segmentBytes_length (readIn s)]
  exact readOut_writeOutBytes s _ _ _

/-- Settles O46: of the engine's three steps only EMIT writes, and its segment lies between OUT_LEN and OUT_CAP. -/
theorem engineStepStaysInsideCapacity : Obligations.EngineStepStaysInsideCapacity := by
  intro s t hb h
  rcases engineTurn_busy_cases hb with ⟨-, e⟩ | ⟨-, -, e⟩ | ⟨-, -, e⟩ | ⟨-, hfit, e⟩ <;> rw [e] at h
  · exact Host.Outcome.next.inj h ▸ ⟨fun _ => rfl, fun _ _ => rfl⟩
  · cases h
  · exact Host.Outcome.next.inj h ▸ ⟨fun _ => rfl, fun _ _ => rfl⟩
  · rw [commitSegment_jobSegment] at h
    split at h
    · obtain rfl := Host.Outcome.next.inj h
      have hle := le_outCap_of_fits hfit
      exact ⟨fun _ => rfl, fun a ha => by rw [readOut_committed, if_neg (by omega)]⟩
    · cases h

/-- Where the job has a next segment, not all input is covered. -/
theorem ne_inLen_of_partitionDefined {s : State} (h : partitionDefined s = true) : s.inPos ≠ s.inLen := by
  intro e
  obtain ⟨hlt, -⟩ := partitionDefined_iff.mp h
  exact absurd (congrArg BitVec.toNat e) (Nat.ne_of_lt hlt)

/-- What the turn of a BUSY engine leaves where the job's bounds hold (41_control_byte_writer.md R105). -/
def engineNext (s : State) : State :=
  if s.inPos = s.inLen then { s with phase := .done }
  else if segmentTooLong s then enterError s .outputBufferExhausted
  else committed s

section
variable {s : State}

theorem engineNext_of_end (h : s.inPos = s.inLen) : engineNext s = { s with phase := .done } := if_pos h

theorem engineNext_of_tooLong (hi : s.inPos ≠ s.inLen) (h : segmentTooLong s = true) :
    engineNext s = enterError s .outputBufferExhausted := (if_neg hi).trans (if_pos h)

theorem engineNext_of_fits (hi : s.inPos ≠ s.inLen) (h : segmentTooLong s = false) : engineNext s = committed s :=
  (if_neg hi).trans (if_neg (by simp [h]))

end

/-- In bounds, the turn of a BUSY engine never faults. -/
theorem engineTurn_of_inBounds {s : State} (hb : s.phase = .busy) (hj : JobInBounds s) :
    engineTurn s = .next (engineNext s) := by
  rcases engineTurn_busy_cases hb with ⟨hi, e⟩ | ⟨hi, hp, -⟩ | ⟨hp, hlong, e⟩ | ⟨hp, hfit, e⟩
  · rw [engineNext_of_end hi, e]
  · exact absurd (partitionDefined_of_inBounds hj hi) (by simp [hp])
  · rw [engineNext_of_tooLong (ne_inLen_of_partitionDefined hp) hlong, e]
  · have hroom := (le_outCap_of_fits hfit).trans hj.2.2
    rw [engineNext_of_fits (ne_inLen_of_partitionDefined hp) hfit, e, commitSegment_jobSegment, if_pos hroom]

/-- What an engine step may depend on is the same: the job's registers and IN[0..IN_LEN) (41_control_byte_writer.md R113). -/
structure SameJobInput (s t : State) : Prop where
  inLen  : s.inLen = t.inLen
  outCap : s.outCap = t.outCap
  inPos  : s.inPos = t.inPos
  outLen : s.outLen = t.outLen
  input  : ∀ a, a < s.inLen.toNat → readIn s a = readIn t a

section
variable {s t : State}

theorem SameJobInput.jobSegment_eq (h : SameJobInput s t) (hlt : s.inPos.toNat < s.inLen.toNat) :
    jobSegment s = jobSegment t := by
  rw [jobSegment, partitionAt_congr h.input hlt, h.inLen, h.inPos, jobSegment]

theorem SameJobInput.segmentTooLong_eq (h : SameJobInput s t) (hlt : s.inPos.toNat < s.inLen.toNat) :
    segmentTooLong s = segmentTooLong t := by
  rw [segmentTooLong, h.jobSegment_eq hlt, h.outCap, h.outLen, segmentTooLong]

theorem SameJobInput.segmentBytes_eq (h : SameJobInput s t) (hlt : s.inPos.toNat < s.inLen.toNat) :
    segmentBytes (readIn s) (jobSegment s) = segmentBytes (readIn t) (jobSegment t) := by
  have hstart : (jobSegment s).start = s.inPos.toNat := partitionAt_start _ _ _
  have hend : s.inPos.toNat + (jobSegment s).len ≤ s.inLen.toNat := partitionAt_end_le hlt
  rw [← h.jobSegment_eq hlt]
  exact segmentBytes_congr (partitionAt_len_pos _ _ _) fun j hj => h.input j (by omega)

/-- EMIT steps over the same job input leave the same progress and write the same bytes. -/
theorem SameJobInput.committed_eq (h : SameJobInput s t) (hlt : s.inPos.toNat < s.inLen.toNat)
    (hfit : segmentTooLong s = false) :
    (committed s).inPos = (committed t).inPos ∧ (committed s).outLen = (committed t).outLen ∧
      ∀ a, s.outLen.toNat ≤ a → a < (committed s).outLen.toNat → readOut (committed s) a = readOut (committed t) a := by
  refine ⟨?_, ?_, fun a hge hlow => ?_⟩
  · simp only [committed, h.inPos, h.jobSegment_eq hlt]
  · simp only [committed, h.outLen, h.jobSegment_eq hlt]
  · rw [committed_outLen hfit] at hlow
    rw [readOut_committed, readOut_committed, if_pos ⟨hge, hlow⟩, h.segmentBytes_eq hlt, ← h.jobSegment_eq hlt,
      ← h.outLen, if_pos ⟨hge, hlow⟩]

end

/-- Settles O47: the dispatch, the segment and its bytes are the same over the same job input. FINISH and EXHAUST write no
byte. -/
theorem engineStepSeesOnlyJobInput : Obligations.EngineStepSeesOnlyJobInput := by
  intro s1 s2 hb1 hb2 herr hl hc hi ho hj1 hj2 hin
  have h : SameJobInput s1 s2 := ⟨hl, hc, hi, ho, hin⟩
  refine ⟨engineNext s1, engineNext s2, engineTurn_of_inBounds hb1 hj1, engineTurn_of_inBounds hb2 hj2, ?_⟩
  by_cases hend : s1.inPos = s1.inLen
  · have hend2 : s2.inPos = s2.inLen := hi ▸ hl ▸ hend
    rw [engineNext_of_end hend, engineNext_of_end hend2]
    exact ⟨rfl, herr, hi, ho, fun _ hge hlt => absurd hlt (Nat.not_lt.mpr hge)⟩
  · have hend2 : s2.inPos ≠ s2.inLen := hi ▸ hl ▸ hend
    have hlt : s1.inPos.toNat < s1.inLen.toNat := (partitionDefined_iff.mp (partitionDefined_of_inBounds hj1 hend)).1
    have hsame := h.segmentTooLong_eq hlt
    cases hfit : segmentTooLong s1 with
    | true =>
      rw [engineNext_of_tooLong hend hfit, engineNext_of_tooLong hend2 (hsame ▸ hfit)]
      exact ⟨rfl, rfl, hi, ho, fun _ hge hlt => absurd hlt (Nat.not_lt.mpr hge)⟩
    | false =>
      rw [engineNext_of_fits hend hfit, engineNext_of_fits hend2 (hsame ▸ hfit)]
      exact ⟨hb1.trans hb2.symm, herr, h.committed_eq hlt hfit⟩

end Sys2Proof.Machine
end

section
/-! One segment at the front of a stream: what the decoder answers for each class of control byte, and that it is what the
encoder writes (30_encoding.md R63 to R73, R79). -/

namespace Sys2Proof

variable {n : Byte} {payload : List Byte}

/-! ### Control bytes -/

/-- The three classes of 30_encoding.md R64 cover all 256 values. -/
theorem controlByte_cases (n : Byte) : n.toNat ≤ 0x7F ∨ n = 0x80#8 ∨ 0x81 ≤ n.toNat := by
  by_cases h80 : n = 0x80#8
  · exact .inr (.inl h80)
  · have hne : n.toNat ≠ 0x80 := fun e => h80 (BitVec.eq_of_toNat_eq e)
    omega

/-- A RUN control byte is neither LIT's nor the reserved one. -/
theorem not_lit_nor_rsvd_of_run (hn : 0x81 ≤ n.toNat) : n.getLsbD 7 ≠ false ∧ n ≠ 0x80#8 :=
  ⟨fun h => absurd ((topBit_clear_iff n).mp h) (by omega), fun e => absurd (e ▸ hn) (by decide)⟩

/-- Settles O5: the control bytes of lengths are those of the model's laws; the signed forms differ from the unsigned ones by
256. -/
theorem controlByteArithmetic : Obligations.ControlByteArithmetic := by
  refine ⟨fun n hn => ?_, fun n hn => ?_, fun len h2 h128 => ⟨runControl_toNat h2, ?_⟩, fun len h2 h127 => ?_,
    fun len _ h128 => litControl_toNat h128⟩
  · have hl := litLength_eq hn
    omega
  · have hcount : runCount n = 257 - n.toNat := rfl
    have hsigned : n.toInt = n.toNat - 256 := by
      rw [BitVec.toInt_eq_toNat_cond, if_neg (by omega)]
      rfl
    have hlt := n.isLt
    omega
  · refine BitVec.eq_of_toNat_eq ?_
    rw [runControl_toNat h2, BitVec.toNat_ofInt]
    omega
  · have hc := runControl_toNat h2
    omega

/-! ### What the decoder answers -/

theorem decodeSegment_lit (hn : n.toNat ≤ 0x7F) (hl : payload.length = n.toNat + 1) (rest : List Byte) :
    decodeSegment (n :: (payload ++ rest)) = .ok (.lit payload, rest) := by
  have hlen : litLength n = payload.length := (litLength_eq hn).trans hl.symm
  have htop : n.getLsbD 7 = false := (topBit_clear_iff n).mpr hn
  refine (if_pos htop).trans ?_
  rw [hlen, if_neg (by simp), List.take_left, List.drop_left]

theorem decodeSegment_rsvd (rest : List Byte) : decodeSegment (0x80#8 :: rest) = .ok (.rsvd, rest) := rfl

theorem decodeSegment_run (hn : 0x81 ≤ n.toNat) (b : Byte) (rest : List Byte) :
    decodeSegment (n :: b :: rest) = .ok (.run (257 - n.toNat) b, rest) := by
  obtain ⟨htop, h80⟩ := not_lit_nor_rsvd_of_run hn
  exact (if_neg htop).trans (if_neg h80)

theorem decodeSegment_truncatedLiteral (hn : n.toNat ≤ 0x7F) (hl : payload.length < n.toNat + 1) :
    decodeSegment (n :: payload) = .error (.truncated .truncatedLiteral) := by
  refine (if_pos ((topBit_clear_iff n).mpr hn)).trans ?_
  rw [litLength_eq hn, if_pos hl]

theorem decodeSegment_truncatedRun (hn : 0x81 ≤ n.toNat) :
    decodeSegment [n] = .error (.truncated .truncatedRun) := by
  obtain ⟨htop, h80⟩ := not_lit_nor_rsvd_of_run hn
  exact (if_neg htop).trans (if_neg h80)

/-- Settles O4: the decoder's equation for each class. -/
theorem controlByteSelectsClass : Obligations.ControlByteSelectsClass :=
  ⟨fun _ _ rest hn hl => decodeSegment_lit hn hl rest, fun _ rest hn => hn ▸ decodeSegment_rsvd rest,
    fun _ b rest hn => decodeSegment_run hn b rest⟩

/-- The shapes of a stream that begins with the whole segment `i` and goes on with `rest` (30_encoding.md R64 to R67). -/
inductive ReadsAs : List Byte → Instr → List Byte → Prop
  | lit {n : Byte} {payload : List Byte} (hn : n.toNat ≤ 0x7F) (hl : payload.length = n.toNat + 1) (rest : List Byte) :
      ReadsAs (n :: (payload ++ rest)) (.lit payload) rest
  | rsvd (rest : List Byte) : ReadsAs (0x80#8 :: rest) .rsvd rest
  | run {n : Byte} (hn : 0x81 ≤ n.toNat) (b : Byte) (rest : List Byte) :
      ReadsAs (n :: b :: rest) (.run (257 - n.toNat) b) rest

theorem ReadsAs.decodeSegment_eq {s rest : List Byte} {i : Instr} (h : ReadsAs s i rest) :
    decodeSegment s = .ok (i, rest) := by
  cases h with
  | lit hn hl => exact decodeSegment_lit hn hl rest
  | rsvd => exact decodeSegment_rsvd rest
  | run hn b => exact decodeSegment_run hn b rest

/-- A stream with a byte left holds a whole segment at its front, or ends inside one (30_encoding.md R77). -/
theorem readsAs_or_truncated (c : Byte) (s : List Byte) :
    (∃ i rest, ReadsAs (c :: s) i rest) ∨ (c.toNat ≤ 0x7F ∧ s.length < c.toNat + 1) ∨ (0x81 ≤ c.toNat ∧ s = []) := by
  rcases controlByte_cases c with hc | rfl | hc
  · rcases Nat.lt_or_ge s.length (c.toNat + 1) with hs | hs
    · exact .inr (.inl ⟨hc, hs⟩)
    · have h := ReadsAs.lit hc (List.length_take_of_le hs) (s.drop (c.toNat + 1))
      rw [List.take_append_drop] at h
      exact .inl ⟨_, _, h⟩
  · exact .inl ⟨_, _, .rsvd s⟩
  · cases s with
    | nil => exact .inr (.inr ⟨hc, rfl⟩)
    | cons b rest => exact .inl ⟨_, _, .run hc b rest⟩

theorem decodeSegment_ok_iff {s rest : List Byte} {i : Instr} : decodeSegment s = .ok (i, rest) ↔ ReadsAs s i rest := by
  refine ⟨fun h => ?_, ReadsAs.decodeSegment_eq⟩
  cases s with
  | nil => cases h
  | cons c s =>
    rcases readsAs_or_truncated c s with ⟨j, rest', hr⟩ | ⟨hc, hs⟩ | ⟨hc, rfl⟩
    · obtain ⟨rfl, rfl⟩ := Prod.mk.inj (Except.ok.inj (hr.decodeSegment_eq.symm.trans h))
      exact hr
    · cases (decodeSegment_truncatedLiteral hc hs).symm.trans h
    · cases (decodeSegment_truncatedRun hc).symm.trans h

/-! ### Against the encoder -/

/-- Only the three wire-format classes are encoded as segments. -/
theorem encode_segment_cases {i : Instr} {bytes : List Byte} (he : encode i = some (.segment bytes)) :
    (∃ payload, i = .lit payload ∧ bytes = litControl payload.length :: payload) ∨ (i = .rsvd ∧ bytes = [0x80#8]) ∨
      ∃ count b, i = .run count b ∧ bytes = [runControl count, b] := by
  cases i with
  | lit payload =>
    cases he
    exact .inl ⟨payload, rfl, rfl⟩
  | rsvd =>
    cases he
    exact .inr (.inl ⟨rfl, rfl⟩)
  | run count b =>
    cases he
    exact .inr (.inr ⟨count, b, rfl, rfl⟩)
  | hostRsvd r acc => cases acc <;> cases he
  | hostStart | hostWrCtrl0 | hostRdCtrl | hostRdStatus | hostWrInLen | hostWrOutCap | hostRdReg | hostWrRo | hostWrIn
  | hostRdIn | hostWrOut | hostRdOut | finish | emitRun | emitLit | exhaust => cases he

section
variable {i : Instr} {bytes : List Byte}

/-- The encoding of a segment, whatever follows it, reads as the segment. -/
theorem readsAs_encode (hw : WellFormed i = true) (he : encode i = some (.segment bytes)) (rest : List Byte) :
    ReadsAs (bytes ++ rest) i rest := by
  rcases encode_segment_cases he with ⟨payload, rfl, rfl⟩ | ⟨rfl, rfl⟩ | ⟨count, b, rfl, rfl⟩
  · obtain ⟨h1, h128⟩ : 1 ≤ payload.length ∧ payload.length ≤ 128 := of_decide_eq_true hw
    have hc := litControl_toNat h128
    exact .lit (by omega) (by omega) rest
  · exact .rsvd rest
  · obtain ⟨h2, h128⟩ : 2 ≤ count ∧ count ≤ 128 := of_decide_eq_true hw
    have hc := runControl_toNat h2
    have h := ReadsAs.run (n := runControl count) (by omega) b rest
    rwa [show 257 - (runControl count).toNat = count by omega] at h

theorem length_of_encode_segment (hw : WellFormed i = true) (he : encode i = some (.segment bytes)) :
    bytes.length = segLen (bytes.headD 0#8) := by
  rcases encode_segment_cases he with ⟨payload, rfl, -⟩ | ⟨rfl, -⟩ | ⟨count, b, rfl, -⟩
  · exact (Laws.EncodedShape.lit payload hw).1 _ he
  · exact (Laws.EncodedShape.rsvd hw).1 _ he
  · exact (Laws.EncodedShape.run count b hw).1 _ he

end

/-- Settles O2: the encoding reads as the segment before any rest, and has the length its control byte says. -/
theorem segmentIsReadFromStreamFront : Obligations.SegmentIsReadFromStreamFront := fun _ _ rest hw he =>
  ⟨(readsAs_encode hw he rest).decodeSegment_eq, length_of_encode_segment hw he⟩

/-- Settles O3: each of the three ways a front can be read gives back its control byte. -/
theorem decodedSegmentEncodesBack : Obligations.DecodedSegmentEncodesBack := by
  intro s rest i h
  cases decodeSegment_ok_iff.mp h with
  | @lit n payload hn hl =>
    have hc : litControl payload.length = n := BitVec.eq_of_toNat_eq (by rw [litControl_toNat (by omega)]; omega)
    exact ⟨decide_eq_true (by omega), n :: payload, by rw [encode, hc], rfl⟩
  | rsvd => exact ⟨rfl, [0x80#8], rfl, rfl⟩
  | @run n hn b =>
    have hlt := n.isLt
    have hc : runControl (257 - n.toNat) = n := BitVec.eq_of_toNat_eq (by rw [runControl_toNat (by omega)]; omega)
    exact ⟨decide_eq_true ⟨by omega, show _ ≤ 128 by omega⟩, [n, b], by rw [encode, hc], rfl⟩

end Sys2Proof
end

section
/-! Decoding the encoding of every operation (30_encoding.md R79, R80). -/

namespace Sys2Proof

theorem decode_access_of_ok {a : HostAccess} {i : Instr} (h : decodeAccess a = .ok i) : decode (.access a) = .ok i := by
  simp [decode, h]

/-- A word of the window is where its offset says. -/
theorem toNat_ofNat_of_regAt {offset : Nat} {r : RegName} (hm : offset % 4 = 0) (hr : regAt (offset / 4) = some r) :
    (BitVec.ofNat 32 offset).toNat % 4 = 0 ∧ regAt ((BitVec.ofNat 32 offset).toNat / 4) = some r := by
  have hwindow : offset / 4 < 8 := of_decide_eq_true ((regAt_isSome _).symm.trans (by rw [hr]; rfl))
  rw [BitVec.toNat_ofNat, Nat.mod_eq_of_lt (show offset < 2 ^ 32 by omega)]
  exact ⟨hm, hr⟩

theorem decode_readReg {offset : Nat} {r : RegName} {i : Instr} (hm : offset % 4 = 0)
    (hr : regAt (offset / 4) = some r) (hi : decodeRegRead r = i) : decode (readReg offset) = .ok i := by
  obtain ⟨hm, hr⟩ := toNat_ofNat_of_regAt hm hr
  exact hi ▸ decode_access_of_ok (decodeAccess_regRead hm hr)

theorem decode_writeReg {offset : Nat} {r : RegName} {v : Word} {i : Instr} (hm : offset % 4 = 0)
    (hr : regAt (offset / 4) = some r) (hi : decodeRegWrite v r = i) : decode (writeReg offset v) = .ok i := by
  obtain ⟨hm, hr⟩ := toNat_ofNat_of_regAt hm hr
  exact hi ▸ decode_access_of_ok (decodeAccess_regWrite hm hr)

/-- Bit 0 of a word written to CTRL selects, and the bits above it are the operand. -/
theorem decodeRegWrite_ctrl (upper : BitVec 31) (b : BitVec 1) :
    decodeRegWrite (upper ++ b) .ctrl = if b.getLsbD 0 then .hostStart upper else .hostWrCtrl0 upper := by
  have hb : (upper ++ b).getLsbD 0 = b.getLsbD 0 := by rw [BitVec.getLsbD_append, if_pos Nat.one_pos]
  have hu : (upper ++ b).extractLsb' 1 31 = upper := BitVec.extractLsb'_append_eq_left
  rw [decodeRegWrite, hb, hu]

/-- The access an operation is encoded as decodes to it. -/
theorem decode_of_encode_access {i : Instr} {a : HostAccess} (he : encode i = some (.access a)) :
    decode (.access a) = .ok i := by
  cases i with
  | hostStart upper => exact Option.some.inj he ▸ decode_writeReg rfl rfl (decodeRegWrite_ctrl upper 1#1)
  | hostWrCtrl0 upper => exact Option.some.inj he ▸ decode_writeReg rfl rfl (decodeRegWrite_ctrl upper 0#1)
  | hostRdCtrl | hostRdStatus => exact Option.some.inj he ▸ decode_readReg rfl rfl rfl
  | hostWrInLen | hostWrOutCap => exact Option.some.inj he ▸ decode_writeReg rfl rfl rfl
  | hostRdReg r => cases r <;> exact Option.some.inj he ▸ decode_readReg rfl rfl rfl
  | hostWrRo r v => cases r <;> exact Option.some.inj he ▸ decode_writeReg rfl rfl rfl
  | hostRsvd r acc =>
    cases acc with
    | read => cases r <;> exact Option.some.inj he ▸ decode_readReg rfl rfl rfl
    | write => cases r <;> exact Option.some.inj he ▸ decode_writeReg rfl rfl rfl
  | hostRdIn | hostRdOut => exact Option.some.inj he ▸ rfl
  | hostWrIn a v | hostWrOut a v =>
    cases he
    simp [decode, decodeAccess]
  | lit | rsvd | run | finish | emitRun | emitLit | exhaust => cases he

/-- Settles O1: a segment's bytes are read whole, with nothing left, and an access as a word of the register window or a
byte of a buffer. -/
theorem decodeOfEncodeIsIdentity : Obligations.DecodeOfEncodeIsIdentity := by
  intro i e hw he
  cases e with
  | segment bytes =>
    have h := (readsAs_encode hw he []).decodeSegment_eq
    rw [List.append_nil] at h
    rw [decode, h]
  | access a => exact decode_of_encode_access he

/-- Settles O7: each word is decoded. -/
theorem decodeOfWordsWrittenOut : Obligations.DecodeOfWordsWrittenOut := by
  unfold Obligations.DecodeOfWordsWrittenOut
  decide

end Sys2Proof
end

section
/-! RefDecode of whole streams (30_encoding.md R63, R75, R77): its loop and the reference reader's turns go through a stream
segment by segment, in step with the decoder. -/

namespace Sys2Proof.Machine

/-- Settles O8: each class's meaning is one append to RefDecode's output, or none. -/
theorem segmentsExtendRefOut : Obligations.SegmentsExtendRefOut := fun _ => ⟨fun _ => rfl, rfl, fun _ _ => rfl⟩

/-! ### One turn of the loop -/

theorem refDecodeLoop_rsvd (fuel : Nat) (s out : List Byte) :
    refDecodeLoop (fuel + 1) (0x80#8 :: s) out = refDecodeLoop fuel s out := rfl

theorem refDecodeLoop_truncatedLiteral {c : Byte} {s : List Byte} (hc : c.toNat ≤ 0x7F) (hs : s.length < c.toNat + 1)
    (fuel : Nat) (out : List Byte) : refDecodeLoop (fuel + 1) (c :: s) out = .error .truncatedLiteral := by
  simp [refDecodeLoop, hc, hs]

theorem refDecodeLoop_truncatedRun {c : Byte} (hc : 0x81 ≤ c.toNat) (fuel : Nat) (out : List Byte) :
    refDecodeLoop (fuel + 1) [c] out = .error .truncatedRun := by
  obtain ⟨-, h80⟩ := not_lit_nor_rsvd_of_run hc
  simp [refDecodeLoop, show ¬ c.toNat ≤ 127 by omega, h80]

/-- The segment at the front of `s` gives `w` and leaves `rest`, for the decoder and the instruction's meaning and for
RefDecode's loop alike. -/
structure FrontGives (s w rest : List Byte) : Prop where
  executes : ∃ i, decodeSegment s = .ok (i, rest) ∧ ∀ t, exec i t = .next (refAppend t w)
  loops    : ∀ fuel out, refDecodeLoop (fuel + 1) s out = refDecodeLoop fuel rest (out ++ w)
  shorter  : rest.length < s.length

/-- The stream `s` ends inside the segment at its front, with error `e`, for the decoder and for RefDecode's loop alike. -/
structure FrontFails (s : List Byte) (e : RefError) : Prop where
  decodes : decodeSegment s = .error (.truncated e)
  loops   : ∀ fuel out, refDecodeLoop (fuel + 1) s out = .error e

theorem refAppend_nil (s : State) : refAppend s [] = s := by rw [refAppend, List.append_nil]

/-- A segment the decoder reads gives RefDecode what its meaning appends (30_encoding.md R75). -/
theorem frontGives_of_readsAs {s rest : List Byte} {i : Instr} (h : ReadsAs s i rest) : ∃ w, FrontGives s w rest := by
  have hd := h.decodeSegment_eq
  cases h with
  | @lit n payload hn hl rest =>
    refine ⟨payload, ⟨_, hd, fun _ => rfl⟩, fun fuel out => ?_, by simp⟩
    have hlen : n.toNat + 1 ≤ (payload ++ rest).length := by
      rw [List.length_append, hl]
      exact Nat.le_add_right _ _
    rw [refDecodeLoop_lit hn hlen, ← hl, List.drop_left, List.take_left]
  | rsvd =>
    refine ⟨[], ⟨_, hd, fun t => congrArg _ (refAppend_nil t).symm⟩, fun fuel out => ?_, by simp⟩
    rw [refDecodeLoop_rsvd, List.append_nil]
  | run hn b =>
    exact ⟨_, ⟨_, hd, fun _ => rfl⟩, fun fuel out => refDecodeLoop_run hn fuel b rest out,
      Nat.lt_add_right 1 (Nat.lt_succ_self _)⟩

theorem frontFails_truncatedLiteral {c : Byte} {s : List Byte} (hc : c.toNat ≤ 0x7F) (hs : s.length < c.toNat + 1) :
    FrontFails (c :: s) .truncatedLiteral :=
  ⟨decodeSegment_truncatedLiteral hc hs, refDecodeLoop_truncatedLiteral hc hs⟩

theorem frontFails_truncatedRun {c : Byte} (hc : 0x81 ≤ c.toNat) : FrontFails [c] .truncatedRun :=
  ⟨decodeSegment_truncatedRun hc, refDecodeLoop_truncatedRun hc⟩

/-- Every stream with a byte left gives a segment or fails. -/
theorem front_gives_or_fails (c : Byte) (s : List Byte) :
    (∃ w rest, FrontGives (c :: s) w rest) ∨ ∃ e, FrontFails (c :: s) e := by
  rcases readsAs_or_truncated c s with ⟨i, rest, h⟩ | ⟨hc, hs⟩ | ⟨hc, rfl⟩
  · obtain ⟨w, hw⟩ := frontGives_of_readsAs h
    exact .inl ⟨w, rest, hw⟩
  · exact .inr ⟨_, frontFails_truncatedLiteral hc hs⟩
  · exact .inr ⟨_, frontFails_truncatedRun hc⟩

theorem FrontFails.refDecode_eq {c : Byte} {s : List Byte} {e : RefError} (h : FrontFails (c :: s) e) :
    refDecode (c :: s) = .error e := h.loops s.length []

/-! ### Streams end to end -/

/-- What the loop adds to its output does not depend on what it starts with, nor on the fuel, if there is enough. -/
theorem refDecodeLoop_map {fuel : Nat} {s : List Byte} (hs : s.length ≤ fuel) (u out : List Byte) {m : Nat}
    (hm : s.length ≤ m) : refDecodeLoop fuel s (u ++ out) = (refDecodeLoop m s out).map (u ++ ·) := by
  induction fuel generalizing s out m with
  | zero =>
    obtain rfl := List.length_eq_zero_iff.mp (Nat.le_zero.mp hs)
    rw [refDecodeLoop_nil, refDecodeLoop_nil, Except.map]
  | succ fuel ih =>
    cases s with
    | nil => rw [refDecodeLoop_nil, refDecodeLoop_nil, Except.map]
    | cons c s =>
      obtain ⟨m, rfl⟩ : ∃ k, m = k + 1 := Nat.exists_eq_add_one.mpr (Nat.zero_lt_of_lt hm)
      rcases front_gives_or_fails c s with ⟨w, rest, h⟩ | ⟨e, h⟩
      · have hlt := h.shorter
        rw [h.loops, h.loops, List.append_assoc]
        exact ih (by omega) _ (by omega)
      · rw [h.loops, h.loops, Except.map]

/-- Settles O10: after the first stream the loop goes on with `u`, and adds to it what it gives of the second. -/
theorem refDecodeOfConcatenation : Obligations.RefDecodeOfConcatenation := by
  intro a b u h
  obtain ⟨extra, e⟩ := refDecodeLoop_append b h Nat.le.refl
  have hb : refDecodeLoop (extra + b.length) b u = (refDecode b).map (u ++ ·) := by
    have hmap := refDecodeLoop_map (Nat.le_add_left b.length extra) u [] Nat.le.refl
    rwa [List.append_nil] at hmap
  rw [refDecode, List.length_append, e, hb]
  cases refDecode b <;> rfl

/-- Settles O11: RefDecode of the streams end to end is its error on the second. -/
theorem refDecodeReportsTruncation : Obligations.RefDecodeReportsTruncation := by
  intro before u h
  refine ⟨fun n payload hn hl => ?_, fun n hn => ?_⟩
  · rw [refDecodeOfConcatenation before _ u h, (frontFails_truncatedLiteral hn hl).refDecode_eq]
  · rw [refDecodeOfConcatenation before _ u h, (frontFails_truncatedRun hn).refDecode_eq]

/-! ### The reference reader -/

theorem runSteps_succ {k : Nat} {s t : State} (h : step s = .next t) : runSteps (k + 1) s = runSteps k t := by
  rw [runSteps, h]

/-- Where RefDecode has returned, with an error or at the end of the stream, the reader's turn passes. -/
theorem referenceTurn_of_returned {s : State} (h : s.refError ≠ none ∨ s.refStream = []) : referenceTurn s = .next s := by
  by_cases he : s.refError = none
  · simp [referenceTurn, he, h.resolve_left (not_not.mpr he), decodeSegment]
  · exact if_pos he

theorem runSteps_reference_of_returned {s : State} {ts : List Turn} {k : Nat} (h : s.refError ≠ none ∨ s.refStream = [])
    (hs : s.turns = List.replicate k .reference ++ ts) : runSteps k s = .next { s with turns := ts } := by
  induction k generalizing s with
  | zero =>
    obtain rfl : s.turns = ts := hs
    rfl
  | succ k ih =>
    rw [runSteps_succ ((step_cons hs).trans (referenceTurn_of_returned h))]
    exact ih h rfl

section
variable {s : State} {ts : List Turn}

theorem FrontGives.step_eq {w rest : List Byte} (h : FrontGives s.refStream w rest) (he : s.refError = none)
    (hs : s.turns = .reference :: ts) : step s = .next (refAppend { s with turns := ts, refStream := rest } w) := by
  obtain ⟨i, hd, hx⟩ := h.executes
  simp [step_cons hs, takeTurn, referenceTurn, he, hd, hx]

theorem FrontFails.step_eq {e : RefError} (h : FrontFails s.refStream e) (he : s.refError = none)
    (hs : s.turns = .reference :: ts) : step s = .next { s with turns := ts, refError := some e } := by
  simp [step_cons hs, takeTurn, referenceTurn, he, h.decodes]

end

/-- RefDecode returned `r` in state `t`. -/
def Returned (t : State) : Except RefError (List Byte) → Prop
  | .ok out  => t.refError = none ∧ t.refStream = [] ∧ t.refOut = out
  | .error e => t.refError = some e

/-- As many turns of the reader as the loop has fuel leave what the loop returns. -/
theorem runSteps_reference {k : Nat} {s : State} {ts : List Turn} (hlen : s.refStream.length ≤ k)
    (he : s.refError = none) (hs : s.turns = List.replicate k .reference ++ ts) :
    ∃ t, runSteps k s = .next t ∧ t.turns = ts ∧ SameEngine s t ∧ Returned t (refDecodeLoop k s.refStream s.refOut) := by
  induction k generalizing s with
  | zero =>
    have hnil : s.refStream = [] := List.length_eq_zero_iff.mp (Nat.le_zero.mp hlen)
    exact ⟨s, rfl, hs, SameEngine.refl s, he, hnil, rfl⟩
  | succ k ih =>
    cases hst : s.refStream with
    | nil => exact ⟨_, runSteps_reference_of_returned (.inr hst) hs, rfl, SameEngine.refl s, he, hst, rfl⟩
    | cons c st =>
      rcases front_gives_or_fails c st with ⟨w, rest, h⟩ | ⟨e, h⟩
      · rw [h.loops]
        rw [← hst] at h
        rw [runSteps_succ (h.step_eq he hs)]
        exact ih (Nat.le_of_lt_succ (h.shorter.trans_le hlen)) he rfl
      · rw [h.loops]
        rw [← hst] at h
        rw [runSteps_succ (h.step_eq he hs), runSteps_reference_of_returned (.inl (Option.some_ne_none e)) rfl]
        exact ⟨_, rfl, rfl, SameEngine.refl s, rfl⟩

/-- Settles O9: the reader's turns go with the loop's, from an empty output. -/
theorem referenceReaderComputesRefDecode : Obligations.ReferenceReaderComputesRefDecode := by
  intro s ts hout he hs
  obtain ⟨t, hrun, hts, hsame, hret⟩ := runSteps_reference Nat.le.refl he hs
  rw [hout] at hret
  exact ⟨t, hrun, hts, hsame, hret⟩

end Sys2Proof.Machine
end

section
/-! The control bytes of a partition's segments (40_partitioner.md R94, 30_encoding.md R71). -/

namespace Sys2Proof.Machine

/-- A control byte below 0x80 or above 0x81 is neither of the two. -/
theorem ne_reserved {c : Byte} (hc : c.toNat ≤ 0x7F ∨ 0x82 ≤ c.toNat) : c ≠ 0x80#8 ∧ c ≠ 0x81#8 :=
  ⟨fun e => absurd (e ▸ hc) (by decide), fun e => absurd (e ▸ hc) (by decide)⟩

/-- Settles O35: a run is 2 to RUN_CAP = 127 bytes long, so its control byte is from 0x82 on, and a span 1 to 128. -/
theorem encoderNeverEmitsReservedControl : Obligations.EncoderNeverEmitsReservedControl := by
  intro x n g hg
  obtain ⟨-, hat⟩ := mem_partitionFrom hg
  rcases partitionAt_cases x n g.start with ⟨hr, e⟩ | ⟨-, e⟩ <;> rw [hat, e]
  · have h2 : 2 ≤ runLength x n g.start := two_le_runLength hr
    have hcap : runLength x n g.start ≤ 127 := runLengthLoop_le_cap x n _ _ 1 (by decide)
    have hc : 0x82 ≤ (runControl (runLength x n g.start)).toNat := by rw [runControl_toNat h2]; omega
    obtain ⟨h80, h81⟩ := ne_reserved (.inr hc)
    exact ⟨_, _, rfl, h80, h81, fun _ => ⟨hc, rfl⟩, nofun⟩
  · have h1 : 1 ≤ spanLength x n g.start := litLengthLoop_ge x n _ _ 1
    have hcap : spanLength x n g.start ≤ 128 := litLengthLoop_le_cap x n _ _ 1 (by decide)
    have hc := litControl_toNat hcap
    obtain ⟨h80, h81⟩ := ne_reserved (.inl (show (litControl (spanLength x n g.start)).toNat ≤ 0x7F by omega))
    refine ⟨_, coveredBytes x ⟨.lit, g.start, spanLength x n g.start⟩, by simp [segmentBytes, litBytes, coveredBytes], h80,
      h81, nofun, fun _ => ⟨by omega, ?_⟩⟩
    rw [coveredBytes_length, hc]
    exact (Nat.sub_add_cancel h1).symm

end Sys2Proof.Machine
end

section
/-! Where the partitioner's two loops stop, and so how long a segment is (40_partitioner.md R90 to R92, R95, R96). -/

namespace Sys2Proof.Machine

variable {x : Nat → Byte} {n i : Nat}

/-! ### RUN_LENGTH -/

/-- With turns enough to reach the cap, the loop ends only where its condition fails. -/
theorem runLengthLoop_stops {fuel l : Nat} (hf : Config.runCap ≤ fuel + l) (hn : i + runLengthLoop x n i fuel l < n)
    (hcap : runLengthLoop x n i fuel l < Config.runCap) : x (i + runLengthLoop x n i fuel l) ≠ x i := by
  induction fuel generalizing l with
  | zero => exact absurd hcap (Nat.not_lt.mpr (Nat.zero_add l ▸ hf))
  | succ fuel ih =>
    unfold runLengthLoop at hn hcap ⊢
    split at hn
    · rename_i hc
      rw [if_pos hc] at hcap ⊢
      exact ih (by omega) hn hcap
    · rename_i hc
      rw [if_neg hc] at hcap ⊢
      exact fun hx => hc ⟨hn, hcap, hx⟩

/-- A run shorter than the cap ends before a byte that differs, where one is left. -/
theorem runLength_stops (hn : i + runLength x n i < n) (hcap : runLength x n i < 127) :
    x (i + runLength x n i) ≠ x i := runLengthLoop_stops (Nat.le_add_right _ 1) hn hcap

theorem runLength_le_cap (x : Nat → Byte) (n i : Nat) : runLength x n i ≤ 127 :=
  runLengthLoop_le_cap x n i _ 1 (by decide)

theorem runLength_end_le (h : i < n) : i + runLength x n i ≤ n := runLengthLoop_end_le h

theorem runLength_bytes {k : Nat} (hk : k < runLength x n i) : x (i + k) = x i :=
  runLengthLoop_bytes (fun k hk => by rw [Nat.lt_one_iff.mp hk, Nat.add_zero]) k hk

/-! ### LIT_LENGTH -/

/-- No run starts at a byte the loop has taken. -/
theorem litLengthLoop_no_run {fuel l : Nat} (h : ∀ k, k < l → runStart x n (i + k) = false) :
    ∀ k, k < litLengthLoop x n i fuel l → runStart x n (i + k) = false := by
  induction fuel generalizing l with
  | zero => exact h
  | succ fuel ih =>
    unfold litLengthLoop
    split
    · rename_i hc
      refine ih fun k hk => ?_
      rcases Nat.lt_succ_iff_lt_or_eq.mp hk with hk | rfl
      · exact h k hk
      · exact hc.2.2
    · exact h

/-- With turns enough to reach the cap, the loop ends only where its condition fails. -/
theorem litLengthLoop_stops {fuel l : Nat} (hf : Config.litCap ≤ fuel + l) (hn : i + litLengthLoop x n i fuel l < n)
    (hcap : litLengthLoop x n i fuel l < Config.litCap) : runStart x n (i + litLengthLoop x n i fuel l) = true := by
  induction fuel generalizing l with
  | zero => exact absurd hcap (Nat.not_lt.mpr (Nat.zero_add l ▸ hf))
  | succ fuel ih =>
    unfold litLengthLoop at hn hcap ⊢
    split at hn
    · rename_i hc
      rw [if_pos hc] at hcap ⊢
      exact ih (by omega) hn hcap
    · rename_i hc
      rw [if_neg hc] at hcap ⊢
      exact Bool.eq_true_of_not_eq_false fun hr => hc ⟨hn, hcap, hr⟩

/-- A span shorter than the cap ends before a run, where input is left. -/
theorem spanLength_stops (hn : i + spanLength x n i < n) (hcap : spanLength x n i < 128) :
    runStart x n (i + spanLength x n i) = true := litLengthLoop_stops (Nat.le_add_right _ 1) hn hcap

theorem spanLength_pos (x : Nat → Byte) (n i : Nat) : 1 ≤ spanLength x n i := litLengthLoop_ge x n i _ 1

theorem spanLength_le_cap (x : Nat → Byte) (n i : Nat) : spanLength x n i ≤ 128 :=
  litLengthLoop_le_cap x n i _ 1 (by decide)

theorem spanLength_end_le (h : i < n) : i + spanLength x n i ≤ n := litLengthLoop_end_le h

theorem spanLength_no_run (h : runStart x n i = false) {k : Nat} (hk : k < spanLength x n i) :
    runStart x n (i + k) = false :=
  litLengthLoop_no_run (fun k hk => by rwa [Nat.lt_one_iff.mp hk]) k hk

/-! ### PARTITION -/

theorem runStart_eq_false_iff {j : Nat} : runStart x n j = false ↔ ¬ (j + 1 < n ∧ x j = x (j + 1)) := by
  rw [← runStart_iff, Bool.not_eq_true]

theorem partitionAt_of_run (h : runStart x n i = true) : partitionAt x n i = ⟨.run, i, runLength x n i⟩ := if_pos h

theorem partitionAt_of_no_run (h : runStart x n i = false) : partitionAt x n i = ⟨.lit, i, spanLength x n i⟩ :=
  if_neg (Bool.not_eq_true _ ▸ h)

theorem partitionAt_len_le (x : Nat → Byte) (n i : Nat) : (partitionAt x n i).len ≤ 128 := by
  rcases partitionAt_cases x n i with ⟨-, e⟩ | ⟨-, e⟩ <;> rw [e]
  · exact Nat.le_succ_of_le (runLength_le_cap x n i)
  · exact spanLength_le_cap x n i

/-- A RUN segment of a partition is RUN_LENGTH's, where a run starts. -/
theorem run_of_mem_partition {g : Segment} (hg : g ∈ partition x n) (hk : g.kind = .run) :
    g.start < n ∧ runStart x n g.start = true ∧ g.len = runLength x n g.start := by
  obtain ⟨hlt, e⟩ := mem_partitionFrom hg
  rcases partitionAt_cases x n g.start with ⟨hr, e'⟩ | ⟨-, e'⟩ <;> rw [e'] at e
  · exact ⟨hlt, hr, congrArg Segment.len e⟩
  · exact absurd (hk.symm.trans (congrArg Segment.kind e)) nofun

/-- A LIT segment of a partition is LIT_LENGTH's, where no run starts. -/
theorem lit_of_mem_partition {g : Segment} (hg : g ∈ partition x n) (hk : g.kind = .lit) :
    g.start < n ∧ runStart x n g.start = false ∧ g.len = spanLength x n g.start := by
  obtain ⟨hlt, e⟩ := mem_partitionFrom hg
  rcases partitionAt_cases x n g.start with ⟨-, e'⟩ | ⟨hr, e'⟩ <;> rw [e'] at e
  · exact absurd (hk.symm.trans (congrArg Segment.kind e)) nofun
  · exact ⟨hlt, hr, congrArg Segment.len e⟩

/-- Settles O40: PARTITION's two cases are the two kinds, and the rules' own inputs are evaluated. -/
theorem pairsAreAlwaysRuns : Obligations.PairsAreAlwaysRuns := by
  refine ⟨fun x n i _ => ⟨fun hr => ?_, fun hr => ?_⟩, by decide, by decide, by decide⟩
  · have hr := runStart_iff.mpr hr
    rw [partitionAt_of_run hr]
    exact ⟨rfl, rfl, two_le_runLength hr⟩
  · rw [partitionAt_of_no_run (runStart_eq_false_iff.mpr hr)]
    exact ⟨rfl, rfl, spanLength_pos x n i⟩

/-- Settles O32: RUN_LENGTH counts equal bytes, at least the two that start the run, up to the cap or a byte that differs. -/
theorem runSegmentsAreMaximalRuns : Obligations.RunSegmentsAreMaximalRuns := by
  intro x n g hg hk
  obtain ⟨hlt, hr, e⟩ := run_of_mem_partition hg hk
  rw [e]
  refine ⟨⟨two_le_runLength hr, runLength_le_cap x n g.start⟩, fun k hk => runLength_bytes hk, fun hcap => ?_⟩
  rcases (runLength_end_le hlt).eq_or_lt with hend | hend
  · exact .inl hend
  · exact .inr (runLength_stops hend hcap)

end Sys2Proof.Machine
end

section
/-! The induction over an input's segments, from its end back to its start, and what it gives of Partition(x) and Encode(x)
(40_partitioner.md R93, R94, R97). -/

namespace Sys2Proof.Machine

variable {x : Nat → Byte} {n i : Nat}

/-- The segments of the input from position `i` on. -/
def segmentsFrom (x : Nat → Byte) (n i : Nat) : List Segment := partitionFrom x n (n - i) i

theorem segmentsFrom_zero (x : Nat → Byte) (n : Nat) : segmentsFrom x n 0 = partition x n := rfl

theorem segmentsFrom_end (x : Nat → Byte) (n : Nat) : segmentsFrom x n n = [] := partitionFrom_of_le le_rfl

theorem segmentsFrom_of_lt (h : i < n) :
    segmentsFrom x n i = partitionAt x n i :: segmentsFrom x n (i + (partitionAt x n i).len) := by
  have hl := partitionAt_len_pos x n i
  obtain ⟨m, hm⟩ : ∃ m, n - i = m + 1 := ⟨n - i - 1, by omega⟩
  rw [segmentsFrom, hm, partitionFrom_of_lt h, partitionFrom_of_fuel (fuel := m) (by omega), segmentsFrom]

/-- The induction from the end of the input back over its segments. -/
theorem segment_induction {P : ∀ i, i ≤ n → Prop} (hend : P n le_rfl)
    (hstep : ∀ i (hlt : i < n), P (i + (partitionAt x n i).len) (partitionAt_end_le hlt) → P i hlt.le) :
    ∀ i hi, P i hi := by
  intro i hi
  induction hm : n - i using Nat.strong_induction_on generalizing i with
  | _ m ih =>
    rcases hi.eq_or_lt with rfl | hlt
    · exact hend
    · have hpos := partitionAt_len_pos x n i
      exact hstep i hlt (ih _ (by omega) _ _ rfl)

/-- The same induction, over runs and spans apart. -/
theorem run_span_induction {P : ∀ i, i ≤ n → Prop} (hend : P n le_rfl)
    (hrun : ∀ i (hlt : i < n), runStart x n i = true → P (i + runLength x n i) (runLength_end_le hlt) → P i hlt.le)
    (hspan : ∀ i (hlt : i < n), runStart x n i = false → P (i + spanLength x n i) (spanLength_end_le hlt) → P i hlt.le) :
    ∀ i hi, P i hi := by
  refine segment_induction (x := x) hend fun i hlt ih => ?_
  rcases partitionAt_cases x n i with ⟨hr, e⟩ | ⟨hr, e⟩ <;> simp only [e] at ih
  · exact hrun i hlt hr ih
  · exact hspan i hlt hr ih

theorem encodeFrom_of_run (h : runStart x n i = true) :
    encodeFrom x n i = runBytes (runLength x n i) (x i) ++ encodeFrom x n (i + runLength x n i) := by
  rw [encodeFrom_of_lt (Nat.lt_of_succ_lt (runStart_iff.mp h).1), partitionAt_of_run h]
  rfl

theorem encodeFrom_of_span (hi : i < n) (h : runStart x n i = false) :
    encodeFrom x n i = litBytes ((List.range (spanLength x n i)).map fun k => x (i + k)) ++
      encodeFrom x n (i + spanLength x n i) := by
  rw [encodeFrom_of_lt hi, partitionAt_of_no_run h]
  rfl

/-! ### RefDecode of the encoding -/

/-- The input up to a segment's end is the input up to its start and the bytes it covers. -/
theorem inputBytes_segment_end (x : Nat → Byte) (n i : Nat) :
    inputBytes x (i + (partitionAt x n i).len) = inputBytes x i ++ coveredBytes x (partitionAt x n i) := by
  simp [inputBytes, coveredBytes, List.range_add]

/-- After a stream that decodes to the input up to `i`, the encoding of the rest decodes to the rest. -/
theorem refDecode_append_encodeFrom (hi : i ≤ n) :
    ∀ {a : List Byte}, refDecode a = .ok (inputBytes x i) → refDecode (a ++ encodeFrom x n i) = .ok (inputBytes x n) := by
  induction i, hi using segment_induction (x := x) with
  | hend =>
    intro a ha
    rwa [encodeFrom_end, List.append_nil]
  | hstep i hlt ih =>
    intro a ha
    rw [encodeFrom_of_lt hlt, ← List.append_assoc]
    exact ih (inputBytes_segment_end x n i ▸ refDecode_append_segmentBytes ha x n i)

/-- Settles O39: each segment of the encoding decodes to the bytes it covers, from the empty stream on. -/
theorem encodingRoundTrips : Obligations.EncodingRoundTrips :=
  fun _ n => refDecode_append_encodeFrom (Nat.zero_le n) (a := []) rfl

/-! ### The segments lie end to end -/

/-- Where a segment ends inside the input, PARTITION's there is a segment too. -/
theorem next_mem_segmentsFrom (hi : i ≤ n) : ∀ g ∈ segmentsFrom x n i, g.start + g.len < n →
    partitionAt x n (g.start + g.len) ∈ segmentsFrom x n i := by
  induction i, hi using segment_induction (x := x) with
  | hend => simp [segmentsFrom_end]
  | hstep i hlt ih =>
    intro g hg hn
    rw [segmentsFrom_of_lt hlt] at hg ⊢
    rcases List.mem_cons.mp hg with rfl | hg
    · rw [partitionAt_start] at hn ⊢
      rw [segmentsFrom_of_lt hn]
      exact .tail _ (.head _)
    · exact .tail _ (ih g hg hn)

/-- Settles O33: LIT_LENGTH takes bytes at which no run starts, up to the cap or a byte at which one does, and that run is the
segment PARTITION gives next. -/
theorem literalSpansStopAtRuns : Obligations.LiteralSpansStopAtRuns := by
  intro x n g hg hk
  have hnext := next_mem_segmentsFrom (Nat.zero_le n) g hg
  obtain ⟨hstart, hr, e⟩ := lit_of_mem_partition hg hk
  rw [e] at hnext ⊢
  refine ⟨⟨spanLength_pos x n g.start, spanLength_le_cap x n g.start⟩, fun k hge hlt => ?_, fun hcap hn => ?_⟩
  · obtain ⟨d, rfl⟩ := Nat.exists_eq_add_of_le hge
    have hno := runStart_eq_false_iff.mp (spanLength_no_run hr (Nat.lt_of_add_lt_add_left hlt))
    have hkn : g.start + d + 1 ≤ n := Nat.le_trans hlt (spanLength_end_le hstart)
    exact hkn.eq_or_lt.imp_right fun h hx => hno ⟨h, hx⟩
  · have hrun := spanLength_stops hn hcap
    exact ⟨hrun, _, hnext hn, partitionAt_start x n _, by rw [partitionAt_of_run hrun]⟩

theorem segmentsFrom_sum_len (hi : i ≤ n) : i + ((segmentsFrom x n i).map Segment.len).sum = n := by
  induction i, hi using segment_induction (x := x) with
  | hend => simp [segmentsFrom_end]
  | hstep i hlt ih =>
    rw [segmentsFrom_of_lt hlt, List.map_cons, List.sum_cons, ← Nat.add_assoc]
    exact ih

/-- The lengths of the segments of a partition add up to the input's. -/
theorem partition_sum_len (x : Nat → Byte) (n : Nat) : ((partition x n).map Segment.len).sum = n :=
  segmentsFrom_zero x n ▸ (Nat.zero_add _).symm.trans (segmentsFrom_sum_len (Nat.zero_le n))

theorem partition_length_le (x : Nat → Byte) (n : Nat) : (partition x n).length ≤ n := by
  have h := le_sum_take_partitionFrom (x := x) (n := n) (fuel := n) (i := 0) le_rfl
  rw [List.take_length] at h
  exact h.trans_eq (partition_sum_len x n)

/-- No segment covers more than 128 bytes. -/
theorem le_partition_length (x : Nat → Byte) (n : Nat) : n ≤ 128 * (partition x n).length := by
  have hle : ∀ l ∈ (partition x n).map Segment.len, l ≤ 128 := by
    intro l hl
    obtain ⟨g, hg, rfl⟩ := List.mem_map.mp hl
    obtain ⟨-, e⟩ := mem_partitionFrom hg
    exact e ▸ partitionAt_len_le x n g.start
  calc n = ((partition x n).map Segment.len).sum := (partition_sum_len x n).symm
    _ ≤ 128 * (partition x n).length := by simpa [Nat.mul_comm] using List.sum_le_card_nsmul _ 128 hle

theorem partitionFrom_head_start {fuel : Nat} {g : Segment} (h : (partitionFrom x n fuel i).head? = some g) :
    g.start = i := by
  cases fuel with
  | zero => cases h
  | succ fuel =>
    rcases Nat.lt_or_ge i n with hi | hi
    · rw [partitionFrom_of_lt hi] at h
      exact Option.some.inj h ▸ partitionAt_start x n i
    · rw [partitionFrom_of_le hi] at h; cases h

/-- A segment starts where the ones before it end. -/
theorem partition_start_of_getElem? {k : Nat} {g : Segment} (h : (partition x n)[k]? = some g) :
    g.start = (((partition x n).take k).map Segment.len).sum := by
  obtain ⟨hk, -⟩ := List.getElem?_eq_some_iff.mp h
  rw [← List.head?_drop, partition, drop_partitionFrom hk.le] at h
  exact (partitionFrom_head_start h).trans (Nat.zero_add _)

/-- R97's sum for the encoding's length. -/
theorem encodeInput_length (x : Nat → Byte) (n : Nat) :
    (encodeInput x n).length = ((partition x n).map fun g => outLength g.kind g.len).sum := by
  simp only [encodeInput, List.length_flatMap, segmentBytes_length]

/-- Settles O34: each part from the segments' own bounds and from where they start. -/
theorem partitionTilesTheInput : Obligations.PartitionTilesTheInput := by
  intro x n
  refine ⟨partition_sum_len x n, partition_length_le x n, ?_, fun k g hg => ?_, encodeInput_length x n⟩
  · have hle := le_partition_length x n
    omega
  · obtain ⟨-, e⟩ := mem_partitionFrom (List.mem_of_getElem? hg)
    exact ⟨partition_start_of_getElem? hg, e, e ▸ partitionAt_len_pos x n g.start⟩

end Sys2Proof.Machine
end

section
/-! The length of the encoding (40_partitioner.md R98), and the encodings of the inputs without runs and of one byte alone
(R100, R101). -/

namespace Sys2Proof.Machine

variable {x : Nat → Byte} {n i : Nat}

theorem encodeFrom_length_of_run (h : runStart x n i = true) :
    (encodeFrom x n i).length = 2 + (encodeFrom x n (i + runLength x n i)).length := by
  rw [encodeFrom_of_run h, List.length_append]
  rfl

theorem encodeFrom_length_of_span (hi : i < n) (h : runStart x n i = false) :
    (encodeFrom x n i).length = spanLength x n i + 1 + (encodeFrom x n (i + spanLength x n i)).length := by
  rw [encodeFrom_of_span hi h, List.length_append]
  simp [litBytes]

/-- The bound of R98 for the rest of the input from `i` on. R98 charges a run to the span before it; where the rest begins with
a run, no span of the rest is charged for that run, and the bound is lower. -/
def RestWithinBound (x : Nat → Byte) (n i : Nat) : Prop :=
  (encodeFrom x n i).length ≤ n - i + (n - i + 2) / 3 ∧
  (runStart x n i = true → (encodeFrom x n i).length ≤ n - i + (n - i) / 3)

theorem restWithinBound (x : Nat → Byte) (hi : i ≤ n) : RestWithinBound x n i := by
  induction i, hi using run_span_induction (x := x) with
  | hend => simp [RestWithinBound, encodeFrom_end]
  | hrun i hlt hr ih =>
    obtain ⟨hrest, -⟩ := ih
    have h2 := two_le_runLength hr
    have hend := runLength_end_le (x := x) hlt
    have hlen := encodeFrom_length_of_run hr
    exact ⟨by omega, fun _ => by omega⟩
  | hspan i hlt hr ih =>
    obtain ⟨hrest, hrun⟩ := ih
    refine ⟨?_, fun h => absurd (hr.symm.trans h) nofun⟩
    have hpos := spanLength_pos x n i
    have hend := spanLength_end_le (x := x) hlt
    have hlen := encodeFrom_length_of_span hlt hr
    rcases hend.eq_or_lt with hn | hn
    · rw [hn, encodeFrom_end, List.length_nil] at hlen
      omega
    · rcases (spanLength_le_cap x n i).eq_or_lt with hcap | hcap
      · omega
      · have hcharged := hrun (spanLength_stops hn hcap)
        omega

theorem spanLength_of_run_next (h : runStart x n i = false) (hr : runStart x n (i + 1) = true) : spanLength x n i = 1 := by
  have hpos := spanLength_pos x n i
  by_contra hne
  exact absurd (hr.symm.trans (spanLength_no_run h (k := 1) (by omega))) nofun

theorem runLength_of_third_differs (h : runStart x n i = true) (hx : x (i + 2) ≠ x i) : runLength x n i = 2 := by
  have h2 := two_le_runLength h
  by_contra hne
  exact hx (runLength_bytes (n := n) (by omega))

/-- The input of R98 that reaches its bound, `01 02 02` over and over. -/
def boundInput : Nat → Byte := fun j => if j % 3 = 0 then 0x01#8 else 0x02#8

theorem boundInput_of_first (q : Nat) : boundInput (3 * q) = 0x01#8 := if_pos (by omega)

theorem boundInput_of_rest {j : Nat} (h : j % 3 ≠ 0) : boundInput j = 0x02#8 := if_neg h

/-- Each `01 02 02` gives four bytes, a span of one and a run of two. -/
theorem encodeFrom_boundInput_length (q k : Nat) : (encodeFrom boundInput (3 * (q + k)) (3 * q)).length = 4 * k := by
  induction k generalizing q with
  | zero => rw [Nat.add_zero, encodeFrom_end]; rfl
  | succ k ih =>
    have h0 : boundInput (3 * q) = 0x01#8 := boundInput_of_first q
    have h1 : boundInput (3 * q + 1) = 0x02#8 := boundInput_of_rest (by omega)
    have h2 : boundInput (3 * q + 1 + 1) = 0x02#8 := boundInput_of_rest (by omega)
    have h3 : boundInput (3 * q + 1 + 2) = 0x01#8 := boundInput_of_first (q + 1)
    have hno : runStart boundInput (3 * (q + (k + 1))) (3 * q) = false :=
      runStart_eq_false_iff.mpr fun ⟨_, hx⟩ => absurd (h0.symm.trans (hx.trans h1)) (by decide)
    have hrun : runStart boundInput (3 * (q + (k + 1))) (3 * q + 1) = true :=
      runStart_iff.mpr ⟨by omega, h1.trans h2.symm⟩
    have hlen : runLength boundInput (3 * (q + (k + 1))) (3 * q + 1) = 2 :=
      runLength_of_third_differs hrun (by rw [h1, h3]; decide)
    rw [encodeFrom_length_of_span (by omega) hno, spanLength_of_run_next hno hrun, encodeFrom_length_of_run hrun, hlen]
    have hrest : (encodeFrom boundInput (3 * (q + (k + 1))) (3 * q + 1 + 2)).length = 4 * k := by
      rw [show q + (k + 1) = q + 1 + k by omega, show 3 * q + 1 + 2 = 3 * (q + 1) by omega, ih]
    omega

/-- Settles O36: R98's charging argument for every input, and its own input for every m. -/
theorem outputNeverExceedsBound : Obligations.OutputNeverExceedsBound := by
  refine ⟨fun x n => (restWithinBound x (Nat.zero_le n)).1, fun m => ?_⟩
  have h := encodeFrom_boundInput_length 0 m
  rw [Nat.zero_add] at h
  calc (encodeInput boundInput (3 * m)).length = 4 * m := h
    _ = 3 * m + (3 * m + 2) / 3 := by omega

/-! ### Inputs without runs -/

/-- The spans of 128 bytes from position `i` on, the last with what is left (R100). -/
def spansFrom (n i : Nat) : List Segment :=
  (List.range ((n - i + 127) / 128)).map fun q => ⟨.lit, i + 128 * q, min 128 (n - (i + 128 * q))⟩

theorem spansFrom_of_lt (h : i < n) : spansFrom n i = ⟨.lit, i, min 128 (n - i)⟩ :: spansFrom n (i + min 128 (n - i)) := by
  have hc : (n - i + 127) / 128 = (n - (i + min 128 (n - i)) + 127) / 128 + 1 := by omega
  rw [spansFrom, hc, List.range_succ_eq_map, List.map_cons, List.map_map]
  refine congrArg _ (List.map_congr_left fun q hq => ?_)
  have hq := List.mem_range.mp hq
  have hpos : i + 128 * (q + 1) = i + min 128 (n - i) + 128 * q := by omega
  simp only [Function.comp_apply, Nat.succ_eq_add_one, hpos]

theorem spanLength_of_no_run (hi : i < n) (h : ∀ j, runStart x n j = false) : spanLength x n i = min 128 (n - i) := by
  have hcap := spanLength_le_cap x n i
  have hend := spanLength_end_le (x := x) hi
  by_contra hne
  have hlt : i + spanLength x n i < n := by omega
  exact absurd ((h _).symm.trans (spanLength_stops hlt (by omega))) nofun

theorem segmentsFrom_of_no_run (h : ∀ j, runStart x n j = false) (hi : i ≤ n) : segmentsFrom x n i = spansFrom n i := by
  induction i, hi using segment_induction (x := x) with
  | hend => simp [segmentsFrom_end, spansFrom]
  | hstep i hlt ih =>
    rw [segmentsFrom_of_lt hlt, ih, partitionAt_of_no_run (h i), spanLength_of_no_run hlt h, spansFrom_of_lt hlt]

/-- Where every segment is a span, the encoding has one byte more for each. -/
theorem encodeInput_length_of_spans (h : ∀ g ∈ partition x n, g.kind = .lit) :
    (encodeInput x n).length = n + (partition x n).length := by
  have hout : (partition x n).map (fun g => outLength g.kind g.len) = (partition x n).map fun g => g.len + 1 :=
    List.map_congr_left fun g hg => by rw [h g hg]; rfl
  rw [encodeInput_length, hout, List.sum_map_add, partition_sum_len]
  simp

/-- Settles O37: without runs every span but the last ends at the cap. -/
theorem inputWithoutRunsIsAllSpans : Obligations.InputWithoutRunsIsAllSpans := by
  intro x n h
  have hno : ∀ j, runStart x n j = false := fun j => runStart_eq_false_iff.mpr fun ⟨hn, hx⟩ => h j hn hx
  have hp : partition x n = spansFrom n 0 := segmentsFrom_zero x n ▸ segmentsFrom_of_no_run hno (Nat.zero_le n)
  refine ⟨?_, ?_⟩
  · simpa [spansFrom] using hp
  · have hlit : ∀ g ∈ partition x n, g.kind = .lit := by simp [hp, spansFrom]
    rw [encodeInput_length_of_spans hlit, hp]
    simp [spansFrom]

/-! ### Inputs of one byte -/

/-- The encoding of `k` bytes `b` (R101). -/
def cappedRuns (b : Byte) (k : Nat) : List Byte :=
  (List.replicate (k / 127) [0x82#8, b]).flatten ++
    (if k % 127 = 0 then [] else if k % 127 = 1 then [0x00#8, b] else [u8 (257 - k % 127), b])

theorem cappedRuns_zero (b : Byte) : cappedRuns b 0 = [] := rfl

theorem cappedRuns_one (b : Byte) : cappedRuns b 1 = [0x00#8, b] := rfl

theorem cappedRuns_of_two_le (b : Byte) {k : Nat} (h : 2 ≤ k) :
    cappedRuns b k = runBytes (min 127 k) b ++ cappedRuns b (k - min 127 k) := by
  rcases Nat.lt_or_ge k 127 with hk | hk
  · rw [Nat.min_eq_right hk.le, Nat.sub_self, cappedRuns_zero]
    simp [cappedRuns, runBytes, runControl, Nat.div_eq_of_lt hk, Nat.mod_eq_of_lt hk, show k ≠ 0 by omega,
      show k ≠ 1 by omega]
  · obtain ⟨r, rfl⟩ := Nat.exists_eq_add_of_le hk
    have hd : (127 + r) / 127 = r / 127 + 1 := by omega
    have hcap : runBytes 127 b = [0x82#8, b] := rfl
    rw [Nat.min_eq_left hk, Nat.add_sub_cancel_left, hcap]
    simp [cappedRuns, hd, List.replicate_succ]

theorem runLength_of_equal_bytes {b : Byte} (h : ∀ k, k < n → x k = b) (hi : i < n) :
    runLength x n i = min 127 (n - i) := by
  have hcap := runLength_le_cap x n i
  have hend := runLength_end_le (x := x) hi
  by_contra hne
  have hlt : i + runLength x n i < n := by omega
  exact runLength_stops hlt (by omega) ((h _ hlt).trans (h i hi).symm)

theorem encodeFrom_of_equal_bytes {b : Byte} (h : ∀ k, k < n → x k = b) (hi : i ≤ n) :
    encodeFrom x n i = cappedRuns b (n - i) := by
  induction i, hi using run_span_induction (x := x) with
  | hend => rw [encodeFrom_end, Nat.sub_self, cappedRuns_zero]
  | hrun i hlt hr ih =>
    have hn : i + 1 < n := (runStart_iff.mp hr).1
    have h2 : 2 ≤ n - i := by omega
    rw [encodeFrom_of_run hr, ih, h i hlt, runLength_of_equal_bytes h hlt, cappedRuns_of_two_le b h2, Nat.sub_add_eq]
  | hspan i hlt hr ih =>
    have hn : n = i + 1 := by
      by_contra hne
      have hn : i + 1 < n := by omega
      exact runStart_eq_false_iff.mp hr ⟨hn, (h i hlt).trans (h (i + 1) hn).symm⟩
    have hl : spanLength x n i = 1 := by
      have hpos := spanLength_pos x n i
      have hend := spanLength_end_le (x := x) hlt
      omega
    have hbyte : litBytes ((List.range 1).map fun k => x (i + k)) = [0x00#8, b] := by rw [← h i hlt]; rfl
    rw [encodeFrom_of_span hlt hr, hl, hbyte, ← hn, encodeFrom_end, hn, Nat.add_sub_cancel_left, cappedRuns_one]
    rfl

/-- Settles O38: every run of equal bytes but the last ends at the cap. -/
theorem equalBytesEncodeAsCappedRuns : Obligations.EqualBytesEncodeAsCappedRuns :=
  fun _ n _ h => encodeFrom_of_equal_bytes h (Nat.zero_le n)

end Sys2Proof.Machine
end

section
/-! The dispatch selects one engine step, and what that step does (41_control_byte_writer.md R105 to R110). -/

namespace Sys2Proof.Machine

variable {s : State}

/-! ### The dispatch -/

theorem engineChoice_of_end (h : s.inPos = s.inLen) : engineChoice s = some .finish := if_pos h

theorem engineChoice_of_tooLong (hp : partitionDefined s = true) (h : segmentTooLong s = true) :
    engineChoice s = some .exhaust := by simp [engineChoice, ne_inLen_of_partitionDefined hp, hp, h]

theorem engineChoice_of_fits (hp : partitionDefined s = true) (h : segmentTooLong s = false) :
    engineChoice s = some (emitStep (jobSegment s)) := by
  simp [engineChoice, ne_inLen_of_partitionDefined hp, hp, h]

/-- A segment that ends at or below OUT_CAP fits. -/
theorem fits_of_le_outCap
    (h : s.outLen.toNat + outLength (jobSegment s).kind (jobSegment s).len ≤ s.outCap.toNat) :
    segmentTooLong s = false := decide_eq_false (Nat.not_lt.mpr h)

/-- In bounds, PARTITION is defined wherever the dispatch asks for it. -/
theorem engineChoice_of_inBounds (hj : JobInBounds s) :
    engineChoice s = some (if s.inPos = s.inLen then .finish
      else if s.outCap.toNat < s.outLen.toNat + outLength (jobSegment s).kind (jobSegment s).len then .exhaust
      else emitStep (jobSegment s)) := by
  by_cases hi : s.inPos = s.inLen
  · rw [if_pos hi, engineChoice_of_end hi]
  · have hp := partitionDefined_of_inBounds hj hi
    rw [if_neg hi]
    split
    · rename_i hlong
      exact engineChoice_of_tooLong hp (segmentTooLong_iff.mpr hlong)
    · rename_i hfit
      exact engineChoice_of_fits hp (fits_of_le_outCap (Nat.not_lt.mp hfit))

/-- The meaning of an engine step is guarded by the dispatch. -/
theorem exec_engineStep {i : Instr} (h : isEngineStep i = true) (s : State) : ∃ o, exec i s = whenSelected i s o := by
  cases i with
  | finish | emitRun | emitLit | exhaust => exact ⟨_, rfl⟩
  | lit | rsvd | run | hostStart | hostWrCtrl0 | hostRdCtrl | hostRdStatus | hostWrInLen | hostWrOutCap | hostRdReg
  | hostWrRo | hostRsvd | hostWrIn | hostRdIn | hostWrOut | hostRdOut => cases h

/-- In bounds, the step the dispatch selects gives a next state. -/
theorem exec_of_choice {i : Instr} (hb : s.phase = .busy) (hj : JobInBounds s) (hc : engineChoice s = some i) :
    exec i s = .next (engineNext s) := by
  rw [← engineTurn_of_inBounds hb hj, engineTurn, if_pos hb, hc]

theorem whenSelected_of_not_choice {i j : Instr} {o : Host.Outcome State Fault Refusal} (hb : s.phase = .busy)
    (hc : engineChoice s = some i) (hne : i ≠ j) : whenSelected j s o = .refused .engineStepNotSelected := by
  simp [whenSelected, hb, hc, hne]

theorem whenSelected_of_not_busy {i : Instr} {o : Host.Outcome State Fault Refusal} (hb : s.phase ≠ .busy) :
    whenSelected i s o = .refused .engineNotEnabled := if_pos hb

/-- Settles O41: every engine step's meaning is guarded by the dispatch, which in bounds selects a step that gives a next
state. -/
theorem dispatchSelectsExactlyOneStep : Obligations.DispatchSelectsExactlyOneStep := by
  intro s
  refine ⟨fun hb hj => ⟨engineChoice_of_inBounds hj, fun j hstep => ?_⟩, fun hb => ⟨if_neg hb, fun j hstep => ?_⟩⟩
  · obtain ⟨o, ho⟩ := exec_engineStep hstep s
    refine ⟨⟨fun ⟨t, ht⟩ => ?_, fun hc => ⟨_, exec_of_choice hb hj hc⟩⟩, fun hne => ?_⟩
    · obtain ⟨-, hc, -⟩ := whenSelected_next.mp (ho ▸ ht)
      exact hc
    · have hc := engineChoice_of_inBounds hj
      exact ho.trans (whenSelected_of_not_choice hb hc fun e => hne (hc.trans (congrArg some e)))
  · obtain ⟨o, ho⟩ := exec_engineStep hstep s
    exact ho.trans (whenSelected_of_not_busy hb)

/-! ### The steps that write nothing -/

/-- Settles O42: at the end of the input the dispatch asks for no capacity. -/
theorem finishEndsInDone : Obligations.FinishEndsInDone :=
  fun _ hb hi => whenSelected_of_choice hb (engineChoice_of_end hi)

/-- Settles O45: the step's own outcome is error entry, which writes STATE and ERR. -/
theorem exhaustReportsAndWritesNothing : Obligations.ExhaustReportsAndWritesNothing :=
  fun _ hb hi hl hlong =>
    whenSelected_of_choice hb (engineChoice_of_tooLong (partitionDefined_iff.mpr ⟨hi, hl⟩) (segmentTooLong_iff.mpr hlong))

/-! ### The EMIT steps -/

/-- The EMIT step of a segment that fits leaves the state the commit rule says (R110). -/
theorem exec_emitStep_of_fits (hb : s.phase = .busy) (hp : partitionDefined s = true) (hfit : segmentTooLong s = false)
    (hcap : s.outCap.toNat ≤ s.params.outSize) : exec (emitStep (jobSegment s)) s = .next (committed s) := by
  rw [exec_emitStep hb (engineChoice_of_fits hp hfit), commitSegment_jobSegment,
    if_pos ((le_outCap_of_fits hfit).trans hcap)]

section
variable {c : Byte} {payload : List Byte} (h : segmentBytes (readIn s) (jobSegment s) = c :: payload)
include h

theorem outLength_of_segmentBytes : outLength (jobSegment s).kind (jobSegment s).len = payload.length + 1 := by
  rw [← segmentBytes_length (readIn s), h, List.length_cons]

/-- The control byte stands at the old OUT_LEN. -/
theorem readOut_committed_control : readOut (committed s) s.outLen.toNat = c := by
  have hsize := outLength_of_segmentBytes h
  rw [readOut_committed, if_pos (by omega), Nat.sub_self, h, List.getD_cons_zero]

/-- The payload stands after the control byte. -/
theorem readOut_committed_payload {k : Nat} (hk : k < payload.length) :
    readOut (committed s) (s.outLen.toNat + 1 + k) = payload.getD k 0#8 := by
  have hsize := outLength_of_segmentBytes h
  rw [Nat.add_assoc, readOut_committed, if_pos (by omega), Nat.add_sub_cancel_left, h, Nat.add_comm 1 k,
    List.getD_cons_succ]

end

theorem readOut_committed_outside (s : State) {a : Nat}
    (ha : a < s.outLen.toNat ∨ s.outLen.toNat + outLength (jobSegment s).kind (jobSegment s).len ≤ a) :
    readOut (committed s) a = readOut s a := by
  rw [readOut_committed, if_neg (by omega)]

/-- A commit changes OUT, OUT_LEN and IN_POS alone. -/
theorem committed_frame (s : State) :
    committed s = { s with
      outBuf := (committed s).outBuf, outLen := (committed s).outLen, inPos := (committed s).inPos } := rfl

section
variable {x : Nat → Byte} {n i len : Nat}

/-- A run that PARTITION gives is RUN_LENGTH's. -/
theorem len_of_partitionAt_run (h : partitionAt x n i = ⟨.run, i, len⟩) : 2 ≤ len ∧ len ≤ 127 := by
  rcases partitionAt_cases x n i with ⟨hr, e⟩ | ⟨-, e⟩ <;> cases e.symm.trans h
  exact ⟨two_le_runLength hr, runLength_le_cap x n i⟩

/-- A span that PARTITION gives is LIT_LENGTH's. -/
theorem len_of_partitionAt_lit (h : partitionAt x n i = ⟨.lit, i, len⟩) : 1 ≤ len ∧ len ≤ 128 := by
  rcases partitionAt_cases x n i with ⟨-, e⟩ | ⟨-, e⟩ <;> cases e.symm.trans h
  exact ⟨spanLength_pos x n i, spanLength_le_cap x n i⟩

end

/-- Settles O43: the segment is the run's control byte and its byte, and the run is at least two and at most RUN_CAP long. -/
theorem emitRunWritesControlAndByte : Obligations.EmitRunWritesControlAndByte := by
  intro s len hb hi hl hcap hg hroom
  obtain ⟨h2, h127⟩ := len_of_partitionAt_run hg
  have hg : jobSegment s = ⟨.run, s.inPos.toNat, len⟩ := hg
  have hsize : outLength (jobSegment s).kind (jobSegment s).len = 2 := by rw [hg]; rfl
  have hbytes : segmentBytes (readIn s) (jobSegment s) = [runControl len, readIn s s.inPos.toNat] := by rw [hg]; rfl
  have hp : partitionDefined s = true := partitionDefined_iff.mpr ⟨hi, hl⟩
  have hfit : segmentTooLong s = false := fits_of_le_outCap (hsize ▸ hroom)
  have hx := exec_emitStep_of_fits hb hp hfit hcap
  rw [hg] at hx
  have hctl := readOut_committed_control hbytes
  refine ⟨committed s, hx, committed_frame s, ?_, ?_, ?_, fun a ha => ?_, ?_, ?_⟩
  · rw [hctl, runControl_toNat h2]
  · rw [hctl, runControl_toNat h2]; omega
  · exact readOut_committed_payload hbytes (k := 0) Nat.zero_lt_one
  · exact readOut_committed_outside s (hsize ▸ ha)
  · rw [committed_outLen hfit, hsize]
  · rw [committed_inPos hp, hg]

/-- Settles O44: the segment is the span's control byte and its bytes, and the span is at least one and at most LIT_CAP
long. -/
theorem emitLitWritesControlAndSpan : Obligations.EmitLitWritesControlAndSpan := by
  intro s len hb hi hl hcap hg hroom
  obtain ⟨h1, h128⟩ := len_of_partitionAt_lit hg
  have hg : jobSegment s = ⟨.lit, s.inPos.toNat, len⟩ := hg
  have hsize : outLength (jobSegment s).kind (jobSegment s).len = len + 1 := by rw [hg]; rfl
  have hbytes : segmentBytes (readIn s) (jobSegment s) = litControl len :: inSlice s s.inPos.toNat len := by
    rw [hg]; simp [segmentBytes, litBytes, inSlice]
  have hp : partitionDefined s = true := partitionDefined_iff.mpr ⟨hi, hl⟩
  have hfit : segmentTooLong s = false := fits_of_le_outCap (hsize ▸ hroom)
  have hx := exec_emitStep_of_fits hb hp hfit hcap
  rw [hg] at hx
  have hctl := readOut_committed_control hbytes
  refine ⟨committed s, hx, committed_frame s, ?_, ?_, fun k hk => ?_, fun a ha => ?_, ?_, ?_⟩
  · rw [hctl, litControl_toNat h128]
  · rw [hctl, litControl_toNat h128]; omega
  · rw [readOut_committed_payload hbytes (by rwa [inSlice_length])]
    simp [inSlice, hk]
  · exact readOut_committed_outside s (hsize ▸ ha)
  · rw [committed_outLen hfit, hsize, Nat.add_assoc]
  · rw [committed_inPos hp, hg]

end Sys2Proof.Machine
end

section
/-! Whole jobs (41_control_byte_writer.md R111 to R113): what a job that a START has begun has written after each EMIT step, and
the step that ends it. -/

namespace Sys2Proof.Machine

/-! ### Runs of several steps -/

/-- One more step at the end of a run. -/
theorem runSteps_then_step {k : Nat} {s t u : State} (hk : runSteps k s = .next t) (h : step t = .next u) :
    runSteps (k + 1) s = .next u := by
  induction k generalizing s with
  | zero =>
    obtain rfl := Host.Outcome.next.inj hk
    exact runSteps_succ h
  | succ k ih =>
    cases hs : step s with
    | next s' =>
      rw [runSteps_succ hs] at hk ⊢
      exact ih hk
    | fault r | refused r => rw [runSteps, hs] at hk; cases hk

/-! ### The first segments of a partition -/

/-- The bytes of the first `k` segments of the job's partition. -/
def firstBytes (s : State) (k : Nat) : List Byte := ((jobPartition s).take k).flatMap (segmentBytes (readIn s))

/-- How much input the first `k` segments of the job's partition cover. -/
def firstCovered (s : State) (k : Nat) : Nat := (((jobPartition s).take k).map Segment.len).sum

section
variable (s : State)

theorem firstBytes_all : firstBytes s (jobPartition s).length = jobEncoding s := by
  rw [firstBytes, List.take_length]; rfl

theorem firstCovered_all : firstCovered s (jobPartition s).length = s.inLen.toNat := by
  rw [firstCovered, List.take_length]; exact partition_sum_len _ _

/-- The first segments are a beginning of the encoding. -/
theorem firstBytes_length_le (k : Nat) : (firstBytes s k).length ≤ (jobEncoding s).length :=
  ((List.take_sublist k (jobPartition s)).flatMap (segmentBytes (readIn s))).length_le

variable {s} {k : Nat}

/-- A segment that is left starts inside the input. -/
theorem firstCovered_lt (hk : k < (jobPartition s).length) : firstCovered s k < s.inLen.toNat := by
  have hstart : (jobPartition s)[k].start = firstCovered s k := partition_start_of_getElem? (List.getElem?_eq_getElem hk)
  rw [← hstart]
  exact (mem_partitionFrom (List.getElem_mem hk)).1

/-- A segment that is left is PARTITION's where the ones before it end. -/
theorem take_succ_jobPartition (hk : k < (jobPartition s).length) :
    (jobPartition s).take (k + 1) =
      (jobPartition s).take k ++ [partitionAt (readIn s) s.inLen.toNat (firstCovered s k)] :=
  (take_succ_partition hk.le rfl (firstCovered_lt hk)).2

end

/-! ### The EMIT steps of a job -/

/-- STATE, ERR, the job's lengths, IN and the turns to come are the same. -/
structure SameSetup (s t : State) : Prop where
  phase  : t.phase = s.phase
  err    : t.err = s.err
  inLen  : t.inLen = s.inLen
  outCap : t.outCap = s.outCap
  inBuf  : t.inBuf = s.inBuf
  params : t.params = s.params
  turns  : t.turns = s.turns

/-- `t` is what the EMIT steps of the first `k` segments leave of the begun job `s` (10_state.md R38; 20_memory.md R52). -/
structure Emitted (s : State) (k : Nat) (t : State) : Prop extends SameSetup s t where
  bounds  : JobInBounds t
  written : outSlice t 0 t.outLen.toNat = firstBytes s k
  covered : t.inPos.toNat = firstCovered s k
  decodes : WrittenDecodes t
  beyond  : ∀ a, t.outLen.toNat ≤ a → readOut t a = readOut s a

section
variable {s t : State} {k : Nat}

theorem JobBegun.emitted_zero (h : JobBegun s) : Emitted s 0 s := by
  obtain ⟨-, -, hi, ho, -, hl, hc, -⟩ := h
  have hbounds : JobInBounds s := ⟨⟨by simp [hi], hl⟩, by simp [ho], hc⟩
  exact ⟨⟨rfl, rfl, rfl, rfl, rfl, rfl, rfl⟩, hbounds, by rw [ho]; rfl, by rw [hi]; rfl, writtenDecodes_of_zero hi ho,
    fun _ _ => rfl⟩

theorem Emitted.readIn_eq (h : Emitted s k t) : readIn t = readIn s :=
  funext fun a => readIn_congr h.inBuf h.params a

theorem Emitted.outLen_eq (h : Emitted s k t) : t.outLen.toNat = (firstBytes s k).length := by
  rw [← h.written, outSlice_length]

/-- With no turn to come, a begun job's step is its engine's. -/
theorem Emitted.step_eq (h : Emitted s k t) (hs : JobBegun s) : step t = .next (engineNext t) := by
  obtain ⟨hb, -, -, -, hts, -⟩ := hs
  rw [step_nil (h.turns.trans hts)]
  exact engineTurn_of_inBounds (h.phase.trans hb) h.bounds

section
variable (h : Emitted s k t) (hk : k < (jobPartition s).length)
include h hk

/-- The segment the engine is at is the first that is left. -/
theorem Emitted.take_succ : (jobPartition s).take (k + 1) = (jobPartition s).take k ++ [jobSegment t] := by
  rw [take_succ_jobPartition hk, jobSegment, h.readIn_eq, h.inLen, h.covered]

theorem Emitted.firstBytes_succ : firstBytes s (k + 1) = firstBytes s k ++ segmentBytes (readIn s) (jobSegment t) := by
  rw [firstBytes, h.take_succ hk, List.flatMap_append, List.flatMap_singleton, firstBytes]

theorem Emitted.firstCovered_succ : firstCovered s (k + 1) = firstCovered s k + (jobSegment t).len := by
  simp [firstCovered, h.take_succ hk]

theorem Emitted.partitionDefined : partitionDefined t = true :=
  partitionDefined_iff.mpr ⟨by rw [h.covered, h.inLen]; exact firstCovered_lt hk, h.bounds.1.2⟩

/-- The engine's segment does not fit exactly where the first `k + 1` segments do not fit OUT_CAP. -/
theorem Emitted.segmentTooLong_iff :
    segmentTooLong t = true ↔ s.outCap.toNat < (firstBytes s (k + 1)).length := by
  rw [Machine.segmentTooLong_iff, h.firstBytes_succ hk, List.length_append, segmentBytes_length, h.outCap, h.outLen_eq]

/-- The EMIT step of the next segment. -/
theorem Emitted.committed (hfit : segmentTooLong t = false) : Emitted s (k + 1) (committed t) := by
  have hp := h.partitionDefined hk
  have hlen := committed_outLen hfit
  refine ⟨⟨h.phase, h.err, h.inLen, h.outCap, h.inBuf, h.params, h.turns⟩,
    committed_inBounds h.bounds hp hfit, ?_, ?_, jobRule_writtenDecodes.commits t h.bounds hp hfit h.decodes,
    fun a ha => ?_⟩
  · rw [outSlice_committed hfit, h.written, h.readIn_eq, h.firstBytes_succ hk]
  · rw [committed_inPos hp, h.covered, h.firstCovered_succ hk]
  · rw [readOut_committed_outside t (.inr (hlen ▸ ha)), h.beyond a (by omega)]

end

/-- As long as the first segments fit OUT_CAP, each step of a begun job emits one of them. -/
theorem JobBegun.runSteps_emitted (hs : JobBegun s) (hk : k ≤ (jobPartition s).length)
    (hfit : ∀ j, j ≤ k → (firstBytes s j).length ≤ s.outCap.toNat) :
    ∃ t, runSteps k s = .next t ∧ Emitted s k t := by
  induction k with
  | zero => exact ⟨s, rfl, hs.emitted_zero⟩
  | succ k ih =>
    obtain ⟨t, hrun, h⟩ := ih (Nat.le_of_succ_le hk) fun j hj => hfit j (Nat.le_succ_of_le hj)
    have hroom : segmentTooLong t = false :=
      Bool.eq_false_iff.mpr (mt (h.segmentTooLong_iff hk).mp (Nat.not_lt.mpr (hfit _ le_rfl)))
    refine ⟨Machine.committed t, runSteps_then_step hrun ?_, h.committed hk hroom⟩
    rw [h.step_eq hs, engineNext_of_fits (ne_inLen_of_partitionDefined (h.partitionDefined hk)) hroom]

end

/-! ### The step that ends a job -/

/-- Settles O48: each of the first segments fits where all of them do, and after the last no input is left. -/
theorem jobThatFitsEndsWithEncoding : Obligations.JobThatFitsEndsWithEncoding := by
  intro s hs hcap
  have hfit : ∀ j, (firstBytes s j).length ≤ s.outCap.toNat := fun j => (firstBytes_length_le s j).trans hcap
  have ⟨hb, he, _⟩ := hs
  refine ⟨fun k hk => ?_, ?_⟩
  · obtain ⟨t, hrun, h⟩ := hs.runSteps_emitted hk fun j _ => hfit j
    exact ⟨t, hrun, h.phase.trans hb, h.covered, h.written⟩
  · obtain ⟨t, hrun, h⟩ := hs.runSteps_emitted le_rfl fun j _ => hfit j
    have hend : t.inPos = s.inLen := BitVec.eq_of_toNat_eq (h.covered.trans (firstCovered_all s))
    have hstep := (h.step_eq hs).trans (congrArg _ (engineNext_of_end (hend.trans h.inLen.symm)))
    exact ⟨_, runSteps_then_step hrun hstep, rfl, h.err.trans he, hend, firstBytes_all s ▸ h.outLen_eq,
      h.written.trans (firstBytes_all s), congrFun h.readIn_eq, h.beyond⟩

/-- Where the encoding does not fit, there is a last segment up to which it does. -/
theorem exists_first_too_long {s : State} (h : s.outCap.toNat < (jobEncoding s).length) :
    ∃ k, k < (jobPartition s).length ∧ (∀ j, j ≤ k → (firstBytes s j).length ≤ s.outCap.toNat) ∧
      s.outCap.toNat < (firstBytes s (k + 1)).length := by
  have hex : ∃ m, s.outCap.toNat < (firstBytes s m).length := ⟨_, (firstBytes_all s).symm ▸ h⟩
  obtain ⟨k, hk⟩ : ∃ k, Nat.find hex = k + 1 :=
    Nat.exists_eq_add_one.mpr ((Nat.find_pos hex).mpr (Nat.not_lt_zero _))
  have hle : Nat.find hex ≤ (jobPartition s).length := Nat.find_le ((firstBytes_all s).symm ▸ h)
  refine ⟨k, by omega, fun j hj => Nat.not_lt.mp (Nat.find_min hex (by omega)), hk ▸ Nat.find_spec hex⟩

/-- Settles O49: the job emits the segments before the first that does not fit, and reports at that one. -/
theorem jobThatDoesNotFitStopsWithWholeSegments : Obligations.JobThatDoesNotFitStopsWithWholeSegments := by
  intro s hs hcap
  obtain ⟨k, hk, hfit, hlong⟩ := exists_first_too_long hcap
  obtain ⟨t, hrun, h⟩ := hs.runSteps_emitted hk.le hfit
  have hstep := (h.step_eq hs).trans (congrArg _ (engineNext_of_tooLong
    (ne_inLen_of_partitionDefined (h.partitionDefined hk)) ((h.segmentTooLong_iff hk).mpr hlong)))
  refine ⟨k, _, hk, runSteps_then_step hrun hstep, rfl, rfl, h.written, ?_, hlong, h.covered, ?_⟩
  · exact h.outCap ▸ h.bounds.2.1
  · exact h.decodes.trans (congrArg _ (inSlice_congr fun _ _ => congrFun h.readIn_eq _))

end Sys2Proof.Machine
end

section
/-! The host operations of 42_host_commands.md: the access each one is decoded from and the state it leaves (R122 to R134), and
the accesses that are refused (R135). The register operations have no condition but BUSY; the buffer operations ask for an
address below the buffer's size. -/

namespace Sys2Proof.Machine

/-! ### Control and status -/

/-- What a START leaves, with both failures of the configuration check (42_host_commands.md R123) written out. -/
theorem startJob_eq (s : State) :
    startJob s =
      if s.phase = .busy then s
      else if s.params.inSize < s.inLen.toNat ∨ s.params.outSize < s.outCap.toNat then
        clearProgress (enterError s .configInvalid)
      else beginJob s := by
  have hfits : lengthsFit s = true ↔ ¬ (s.params.inSize < s.inLen.toNat ∨ s.params.outSize < s.outCap.toNat) := by
    rw [lengthsFit_iff, not_or, Nat.not_lt, Nat.not_lt]
  rcases startJob_cases s with ⟨hb, e⟩ | ⟨hb, hf, e⟩ | ⟨hb, hf, e⟩
  · rw [if_pos hb, e]
  · rw [if_neg hb, if_neg (hfits.mp hf), e]
  · rw [if_neg hb, if_pos (not_not.mp (mt hfits.mpr (Bool.eq_false_iff.mp hf))), e]

/-- Settles O14: bit 0 of the word selects HOST_START, which has START's three cases. -/
theorem startBeginsJobOrReportsConfig : Obligations.StartBeginsJobOrReportsConfig :=
  ⟨fun _ hv => (decodeAccess_regWrite (r := .ctrl) rfl rfl).trans (congrArg _ (if_pos hv)),
    fun _ s => congrArg _ (startJob_eq s)⟩

/-- Settles O15: with bit 0 clear the word selects HOST_WR_CTRL0. -/
theorem ctrlReadsZeroAndClearBitDoesNothing : Obligations.CtrlReadsZeroAndClearBitDoesNothing :=
  ⟨fun _ hv => (decodeAccess_regWrite (r := .ctrl) rfl rfl).trans (congrArg _ (if_neg (Bool.eq_false_iff.mp hv))),
    fun _ => decodeAccess_regRead (r := .ctrl) rfl rfl, fun _ => ⟨fun _ => rfl, rfl⟩⟩

/-- Settles O16: outside ERROR the ERR code is 0, and in ERROR it is one of the other two. -/
theorem statusReadReturnsCodes : Obligations.StatusReadReturnsCodes := by
  refine ⟨fun _ => decodeAccess_regRead (r := .status) rfl rfl, fun _ => rfl, fun s hs => ?_⟩
  unfold ErrMatchesState at hs
  unfold statusWord
  cases hp : s.phase with
  | idle | busy | done =>
    rw [hs.mpr (by simp [hp])]
    rfl
  | error =>
    cases he : s.err with
    | none => exact absurd hp (hs.mp he)
    | outputBufferExhausted | configInvalid => rfl

/-! ### Length and capacity -/

/-- Settles O17: the operations store under `unlessBusy`. -/
theorem lengthRegistersStoreUnlessBusy : Obligations.LengthRegistersStoreUnlessBusy :=
  ⟨fun _ => ⟨decodeAccess_regWrite (r := .inLen) rfl rfl, decodeAccess_regWrite (r := .outCap) rfl rfl⟩,
    fun _ _ => ⟨rfl, rfl⟩⟩

/-- Settles O18: one operation reads the four registers. -/
theorem dataRegistersReadWhole : Obligations.DataRegistersReadWhole :=
  ⟨fun _ => ⟨decodeAccess_regRead (r := .inLen) rfl rfl, decodeAccess_regRead (r := .outCap) rfl rfl,
      decodeAccess_regRead (r := .inPos) rfl rfl, decodeAccess_regRead (r := .outLen) rfl rfl⟩,
    fun _ => ⟨rfl, rfl, rfl, rfl⟩⟩

/-- Settles O19: the three registers share one write, whose next state is the state itself. -/
theorem readOnlyRegistersIgnoreWrites : Obligations.ReadOnlyRegistersIgnoreWrites :=
  ⟨fun _ => ⟨decodeAccess_regWrite (r := .status) rfl rfl, decodeAccess_regWrite (r := .inPos) rfl rfl,
      decodeAccess_regWrite (r := .outLen) rfl rfl⟩,
    fun _ _ _ => rfl⟩

/-- Settles O20: both offsets are one operation, which a read and a write of it share. -/
theorem reservedOffsetsReadZeroIgnoreWrites : Obligations.ReservedOffsetsReadZeroIgnoreWrites :=
  ⟨fun _ => ⟨decodeAccess_regRead (r := .rsvd18) rfl rfl, decodeAccess_regRead (r := .rsvd1C) rfl rfl,
      decodeAccess_regWrite (r := .rsvd18) rfl rfl, decodeAccess_regWrite (r := .rsvd1C) rfl rfl⟩,
    fun _ _ => ⟨rfl, fun _ => rfl⟩⟩

/-! ### Buffers -/

/-- Settles O22: the write is in range, and dropped or carried out on IN alone. -/
theorem writeInStoresUnlessBusy : Obligations.WriteInStoresUnlessBusy := by
  refine ⟨fun a v => by simp [decodeAccess], fun a v s ha => ⟨_, atInAddress_next.mpr ⟨ha, rfl⟩, ?_⟩⟩
  rcases unlessBusy_cases s (writeIn s a.toNat v) with ⟨hb, e⟩ | ⟨hb, e⟩ <;> rw [e]
  · exact ⟨rfl, fun _ => rfl, fun h => absurd hb h, fun _ _ => rfl, fun _ => rfl⟩
  · exact ⟨rfl, fun h => absurd h hb, fun _ => readIn_writeIn_same s a.toNat v, fun _ => readIn_writeIn_other s v,
      fun b => readOut_writeIn s a.toNat b v⟩

/-- Settles O23: the read is in range and asks nothing of STATE. -/
theorem readInReturnsByteInAnyState : Obligations.ReadInReturnsByteInAnyState :=
  ⟨fun _ _ => rfl, fun _ _ ha => atInAddress_next.mpr ⟨ha, rfl⟩⟩

/-- Settles O24: the write is in range, and dropped or carried out on OUT alone. -/
theorem writeOutStoresUnlessBusy : Obligations.WriteOutStoresUnlessBusy := by
  refine ⟨fun a v => by simp [decodeAccess], fun a v s ha => ⟨_, atOutAddress_next.mpr ⟨ha, rfl⟩, ?_⟩⟩
  rcases unlessBusy_cases s (writeOut s a.toNat v) with ⟨hb, e⟩ | ⟨hb, e⟩ <;> rw [e]
  · exact ⟨rfl, fun _ => rfl, fun h => absurd hb h, fun _ _ => rfl, fun _ => rfl⟩
  · exact ⟨rfl, fun h => absurd h hb, fun _ => readOut_writeOut_same s a.toNat v, fun _ => readOut_writeOut_other s v,
      fun b => readIn_writeOut s a.toNat b v⟩

/-- Settles O25: the read is in range, and its one test is of BUSY. -/
theorem readOutDrawsWhileBusy : Obligations.ReadOutDrawsWhileBusy :=
  ⟨fun _ _ => rfl, fun _ _ ha => atOutAddress_next.mpr ⟨ha, rfl⟩⟩

/-! ### Refused accesses -/

theorem atInAddress_of_beyond {s : State} {a : Word} (h : s.params.inSize ≤ a.toNat) (t : State) :
    atInAddress s a t = .refused .bufferAddressBeyondSize := if_neg (Nat.not_lt.mpr h)

theorem atOutAddress_of_beyond {s : State} {a : Word} (h : s.params.outSize ≤ a.toNat) (t : State) :
    atOutAddress s a t = .refused .bufferAddressBeyondSize := if_neg (Nat.not_lt.mpr h)

theorem hostTurn_of_error {a : HostAccess} {r : AccessReject} (h : decodeAccess a = .error r) (s : State) :
    hostTurn a s = .refused (.accessRefused r) := by simp [hostTurn, h]

theorem decodeAccess_of_bufferWidth {a : HostAccess} (hs : a.space ≠ .reg) (hw : a.width ≠ 8) :
    decodeAccess a = .error .bufferWidth := by
  cases h : a.space with
  | reg => exact absurd h hs
  | inBuf | outBuf => simp [decodeAccess, h, hw]

theorem decodeAccess_of_regWidth {a : HostAccess} (hs : a.space = .reg) (hw : a.width ≠ 32) :
    decodeAccess a = .error .regWidth := by simp [decodeAccess, hs, hw]

theorem decodeAccess_of_regMisaligned {a : HostAccess} (hs : a.space = .reg) (hw : a.width = 32)
    (hm : a.addr.toNat % 4 ≠ 0) : decodeAccess a = .error .regMisaligned := by simp [decodeAccess, hs, hw, hm]

/-- Settles O26: the four operations guard their address before they look at STATE, and an access of another width or
alignment decodes to no operation. -/
theorem bufferAccessBeyondSizeIsRefused : Obligations.BufferAccessBeyondSizeIsRefused :=
  ⟨fun _ _ _ ha => ⟨atInAddress_of_beyond ha _, atInAddress_of_beyond ha _⟩,
    fun _ _ _ ha => ⟨atOutAddress_of_beyond ha _, atOutAddress_of_beyond ha _⟩,
    fun _ s hs hw => hostTurn_of_error (decodeAccess_of_bufferWidth hs hw) s,
    fun _ s hs hw => hostTurn_of_error (decodeAccess_of_regWidth hs hw) s,
    fun _ s hs hw hm => hostTurn_of_error (decodeAccess_of_regMisaligned hs hw hm) s⟩

end Sys2Proof.Machine
end

section
/-! Several engines on one platform (60_exceptions.md R152): a platform's action is one engine's step, put in its place. -/

namespace Sys2Proof.Machine

/-- All a platform's action can do: nothing where it names no engine, and else what that engine's step answers. -/
theorem platformStep_next {p q : List State} {k : Nat} :
    platformStep p k = .next q ↔
      (p[k]? = none ∧ q = p) ∨ ∃ s t, p[k]? = some s ∧ step s = .next t ∧ q = p.set k t := by
  cases hp : p[k]? with
  | none => simp [platformStep, hp, eq_comm]
  | some s => cases hs : step s <;> simp [platformStep, hp, hs, eq_comm]

theorem platformStep_getElem?_other {p q : List State} {k j : Nat} (h : platformStep p k = .next q) (hj : j ≠ k) :
    q[j]? = p[j]? := by
  obtain ⟨-, rfl⟩ | ⟨_, _, -, -, rfl⟩ := platformStep_next.mp h
  · rfl
  · exact List.getElem?_set_ne hj.symm

theorem getElem?_set_of_some {p : List State} {k : Nat} {s : State} (hs : p[k]? = some s) (t : State) :
    (p.set k t)[k]? = some t := List.getElem?_set_self (List.getElem?_eq_some_iff.mp hs).1

theorem platformStep_getElem?_none {p q : List State} {k : Nat} (hp : p[k]? = none) (h : platformStep p k = .next q) :
    q[k]? = none := by
  obtain ⟨-, rfl⟩ | ⟨s, _, hs, -, -⟩ := platformStep_next.mp h
  · exact hp
  · cases hp.symm.trans hs

theorem platformStep_getElem?_some {p q : List State} {k : Nat} {s : State} (hp : p[k]? = some s)
    (h : platformStep p k = .next q) : ∃ t, step s = .next t ∧ q[k]? = some t := by
  obtain ⟨hn, -⟩ | ⟨s', t, hs, ht, rfl⟩ := platformStep_next.mp h
  · cases hp.symm.trans hn
  · cases hp.symm.trans hs
    exact ⟨t, ht, getElem?_set_of_some hp t⟩

/-- What an action leaves of its engine is a function of that engine alone, whatever the platform around it. -/
theorem platformStep_getElem?_congr {p p' q q' : List State} {k : Nat} (hk : p[k]? = p'[k]?)
    (h : platformStep p k = .next q) (h' : platformStep p' k = .next q') : q[k]? = q'[k]? := by
  cases hp : p[k]? with
  | none => rw [platformStep_getElem?_none hp h, platformStep_getElem?_none (hk ▸ hp) h']
  | some s =>
    obtain ⟨t, ht, hq⟩ := platformStep_getElem?_some hp h
    obtain ⟨t', ht', hq'⟩ := platformStep_getElem?_some (hk ▸ hp) h'
    cases ht.symm.trans ht'
    rw [hq, hq']

/-- Settles O59: an action replaces one element of the list, by what the step of that element alone gives. -/
theorem enginesShareNothing : Obligations.EnginesShareNothing :=
  ⟨fun _ _ _ _ h hj => platformStep_getElem?_other h hj,
    fun _ _ _ _ _ hk h h' => platformStep_getElem?_congr hk h h',
    fun p k s t hs ht =>
      ⟨p.set k t, platformStep_next.mpr (.inr ⟨s, t, hs, ht, rfl⟩), getElem?_set_of_some hs t, List.length_set⟩⟩

end Sys2Proof.Machine
end

section
/-! Hazards and reset (70_reset_and_hazards.md): a host operation against a running job (R162 to R164), a register read after its
write (R167), a job with a safe capacity (R161), and the reset event with the START after it (R156, R157). -/

namespace Sys2Proof.Machine

/-! ### Host operations -/

theorem unlessBusy_sameEngine {s : State} (hb : s.phase = .busy) (t : State) : SameEngine s (unlessBusy s t) :=
  (unlessBusy_of_busy hb t).symm ▸ SameEngine.refl s

/-- Settles O28: reads have no side effect, writes and START are dropped while BUSY, and the other operations have no effect in
any state. -/
theorem busyEngineIgnoresHost : Obligations.BusyEngineIgnoresHost := by
  intro i s t hi hb h
  cases i with
  | hostRdCtrl | hostRdStatus | hostRdReg | hostRdIn | hostRdOut =>
    obtain ⟨hsame, -⟩ := readsHaveNoSideEffect _ s t (by simp) h
    exact hsame
  | hostRsvd r acc =>
    cases acc <;> obtain rfl := Host.Outcome.next.inj h <;> exact SameEngine.refl s
  | hostWrCtrl0 | hostWrRo =>
    obtain rfl := Host.Outcome.next.inj h
    exact SameEngine.refl s
  | hostStart | hostWrInLen | hostWrOutCap =>
    obtain rfl := Host.Outcome.next.inj h
    exact unlessBusy_sameEngine hb _
  | hostWrIn =>
    obtain ⟨-, rfl⟩ := atInAddress_next.mp h
    exact unlessBusy_sameEngine hb _
  | hostWrOut =>
    obtain ⟨-, rfl⟩ := atOutAddress_next.mp h
    exact unlessBusy_sameEngine hb _
  | lit | rsvd | run | finish | emitRun | emitLit | exhaust => cases hi

/-- Settles O21: outside BUSY the written value is the register's, and the read returns the register whole. -/
theorem readAfterRegisterWriteReturnsIt : Obligations.ReadAfterRegisterWriteReturnsIt := by
  intro v s hb
  refine ⟨⟨_, _, rfl, rfl, ?_⟩, ⟨_, _, rfl, rfl, ?_⟩⟩ <;> rw [unlessBusy_of_not_busy hb] <;> rfl

/-! ### A safe capacity -/

/-- Settles O50: the encoding is no longer than R98's bound, so it fits, and a partition has at most one segment for each input
byte. -/
theorem safeCapacityAlwaysEndsInDone : Obligations.SafeCapacityAlwaysEndsInDone := by
  intro s hs hcap
  obtain ⟨hbound, -⟩ := outputNeverExceedsBound
  have hfit : (jobEncoding s).length ≤ s.outCap.toNat := (hbound (readIn s) s.inLen.toNat).trans hcap
  obtain ⟨-, t, hrun, hdone, -⟩ := jobThatFitsEndsWithEncoding s hs hfit
  exact ⟨_, t, Nat.succ_le_succ (partition_length_le _ _), hrun, hdone⟩

/-! ### Reset -/

/-- The bytes a reset draws are those a BUSY job may have been writing: from OUT_LEN on, below OUT_CAP, as far as OUT goes. -/
theorem mem_cutOff_iff {s : State} {a : Nat} :
    s.outLen.toNat ≤ a ∧ a < s.outLen.toNat + cutOffCount s ↔
      s.phase = .busy ∧ s.outLen.toNat ≤ a ∧ a < s.outCap.toNat ∧ a < s.params.outSize := by
  by_cases hb : s.phase = .busy
  · rw [cutOffCount, if_pos hb]
    simp only [hb, true_and]
    omega
  · rw [cutOffCount, if_neg hb]
    simp only [hb, false_and, iff_false]
    omega

theorem readOut_resetEvent (s : State) (a : Nat) :
    readOut (resetEvent s) a =
      if s.phase = .busy ∧ s.outLen.toNat ≤ a ∧ a < s.outCap.toNat ∧ a < s.params.outSize then
        Config.freeByte (s.draws + (a - s.outLen.toNat))
      else readOut s a := by
  have hwrite : readOut (resetEvent s) a = readOut (writeOutBytes s s.outLen.toNat (drawn s (cutOffCount s))) a := rfl
  rw [hwrite, readOut_writeOutBytes, drawn_length]
  simp only [mem_cutOff_iff]
  split
  · rename_i hin
    obtain ⟨hge, hlt⟩ := mem_cutOff_iff.mpr hin
    exact drawn_getD s (by omega)
  · rfl

/-- Settles O51: the registers and IN are `resetEvent`'s, and OUT changes where a BUSY job's bytes are cut off, by
`readOut_resetEvent`. -/
theorem resetClearsRegistersAndKeepsBuffers : Obligations.ResetClearsRegistersAndKeepsBuffers := by
  intro s ts hs
  refine ⟨resetEvent { s with turns := ts }, step_cons hs, rfl, rfl, rfl, rfl, rfl, rfl, rfl, fun _ => rfl,
    fun a ha => ?_, fun hb a hge hcap hsize => ?_⟩
  · have hout : ¬ (s.phase = .busy ∧ s.outLen.toNat ≤ a ∧ a < s.outCap.toNat ∧ a < s.params.outSize) := by
      rintro ⟨hb, hge, hcap, -⟩
      rcases ha with hnb | hbelow
      · exact hnb hb
      · omega
    exact (readOut_resetEvent { s with turns := ts } a).trans (if_neg hout)
  · exact (readOut_resetEvent { s with turns := ts } a).trans (if_pos ⟨hb, hge, hcap, hsize⟩)

/-! ### START with both length registers at 0 -/

theorem exec_hostStart_of_fits {s : State} (hb : s.phase ≠ .busy) (hfit : lengthsFit s = true) (u : BitVec 31) :
    exec (.hostStart u) s = .next (beginJob s) := by
  have hstart : startJob s = beginJob s := by rw [startJob, unlessBusy_of_not_busy hb, if_pos hfit]
  exact congrArg _ hstart

/-- An empty input fits IN and has no segment, so a START and one engine step end the job. -/
theorem runSteps_start_of_empty {s : State} {a : HostAccess} {u : BitVec 31} (hturns : s.turns = [.host a, .engine])
    (ha : decodeAccess a = .ok (.hostStart u)) (hb : s.phase ≠ .busy) (hlen : s.inLen = 0#32) (hcap : s.outCap = 0#32) :
    runSteps 2 s = .next { beginJob s with phase := .done, turns := [] } := by
  obtain ⟨hhost, -, hengine, -⟩ := stepRunsDecodedInstruction
  have hfit : lengthsFit s = true := lengthsFit_iff.mpr (by simp [hlen, hcap])
  have hend : (0#32 : Word) = s.inLen := hlen.symm
  have hstart : step s = .next (beginJob { s with turns := [.engine] }) :=
    (hhost s a _ _ hturns ha).trans (exec_hostStart_of_fits (s := { s with turns := [.engine] }) hb hfit u)
  have hfinish : step (beginJob { s with turns := [.engine] }) = .next { beginJob s with phase := .done, turns := [] } :=
    (hengine _ [] .finish rfl rfl (engineChoice_of_end hend)).trans (finishEndsInDone _ rfl hend)
  rw [runSteps_succ hstart, runSteps_succ hfinish, runSteps]

/-- Settles O52: a reset leaves both length registers at 0. -/
theorem startAfterResetFinishesEmpty : Obligations.StartAfterResetFinishesEmpty :=
  fun _ => ⟨_, runSteps_start_of_empty rfl rfl nofun rfl rfl, rfl, rfl, rfl⟩

end Sys2Proof.Machine
end
